-- ==== Sys2Proof/Word.lean ====
section
/-! DEFINITION. The word types of the block (00_scope R9): every value is unsigned, bit 0 is the least significant. -/

namespace Sys2Proof

/-- A byte (R9). -/
abbrev Byte := BitVec 8

/-- `u32`, the word of the Salsa20 engine (R6, R9). -/
abbrev Word32 := BitVec 32

/-- `u64`, the word of the SHA-512 engine and the Salsa20 block counter (R6, R9). -/
abbrev Word64 := BitVec 64

/-- `u128`, the SHA-512 bit-length counter (R6, R9). -/
abbrev Word128 := BitVec 128

end Sys2Proof
end

