-- ==== Sys2Proof/Record.lean ====
section
/-! DEFINITION. The command record `CMD` (10_state R28, 30_encoding R80, R82): an opcode byte and the operand
fields. The record is abstract; how it is packed into bus words belongs to the `Binding` (R7, R80), which
delivers it unchanged. -/

namespace Sys2Proof

/-- `CMD` (R28). A command reads `op` and, of the other fields, those that R82 lists for its opcode; a field the
opcode does not list is not part of its record and is never looked at (notes/assumptions/4.md). `key` and
`nonce` are byte strings of any length, so that a wrong length can be presented and refused (R85). -/
structure Record where
  /-- opcode, 8 bits: bits 7..4 the engine, bits 3..0 the function (R81) -/
  op : Byte
  /-- context index -/
  ctx : Nat
  /-- key, first byte first; 32 bytes when the size contract holds -/
  key : List Byte
  /-- nonce, first byte first; 8 bytes when the size contract holds -/
  nonce : List Byte
  /-- block counter -/
  counter : Word64
  /-- count of bytes -/
  length : Nat
  /-- count of 128-byte blocks -/
  n : Nat
  /-- address of the first input byte -/
  inAddr : Nat
  /-- address of the first output byte -/
  outAddr : Nat
deriving DecidableEq, Repr

end Sys2Proof
end

