-- ==== Sys2Proof/Syntax.lean ====
section
/-! DEFINITION. The ten commands of the block (30_encoding R81), one constructor per row of
spec/opcode_table.json, with the operand fields of R82 in its order. -/

namespace Sys2Proof

/-- A command. `key` and `nonce` are byte strings first byte first, `ctx` a context index, `length` a count of
bytes, `n` a count of 128-byte blocks, `inAddr` and `outAddr` byte addresses (R82, R84). -/
inductive Instr where
  /-- `SALSA20_KEYSTREAM`, op 0x10 (R120) -/
  | salsa20Keystream (nonce : List Byte) (counter : Word64) (key : List Byte)
  /-- `SALSA20_STREAM`, op 0x11 (R127) -/
  | salsa20Stream (outAddr length : Nat) (nonce key : List Byte)
  /-- `SALSA20_XOR`, op 0x12 (R126) -/
  | salsa20Xor (outAddr inAddr length : Nat) (nonce key : List Byte)
  /-- `SALSA20_XOR_IC`, op 0x13 (R125) -/
  | salsa20XorIc (outAddr inAddr length : Nat) (nonce : List Byte) (counter : Word64) (key : List Byte)
  /-- `SHA512_INIT`, op 0x20 (R170) -/
  | sha512Init (ctx : Nat)
  /-- `SHA512_UPDATE`, op 0x21 (R174) -/
  | sha512Update (ctx inAddr : Nat)
  /-- `SHA512_UPDATE_MULTI`, op 0x22 (R173) -/
  | sha512UpdateMulti (ctx inAddr n : Nat)
  /-- `SHA512_UPDATE_LAST`, op 0x23 (R177) -/
  | sha512UpdateLast (ctx inAddr length : Nat)
  /-- `SHA512_FINISH`, op 0x24 (R181) -/
  | sha512Finish (ctx : Nat)
  /-- `SHA512_HASH`, op 0x25 (R182) -/
  | sha512Hash (inAddr length : Nat)
deriving DecidableEq, Repr

end Sys2Proof
end

