-- ==== Sys2Proof/Decode.lean ====
section
/-! DEFINITION. Decoding a command record and encoding a command (30_encoding R81 to R83, R86). -/

namespace Sys2Proof

/-- Why a record is no command. -/
inductive DecodeError where
  /-- `op` is none of the ten values of R81 (R86); the block answers it with `IllegalCommand` (R202). -/
  | reservedOpcode (op : Byte)
deriving DecidableEq, Repr

/-- Read `op`; for one of the ten values of R81 read the fields of R82; every other value is reserved, whatever
the other fields hold (R83, R86). -/
def decode (r : Record) : Except DecodeError Instr :=
  match r.op with
  | 0x10#8 => .ok (.salsa20Keystream r.nonce r.counter r.key)
  | 0x11#8 => .ok (.salsa20Stream r.outAddr r.length r.nonce r.key)
  | 0x12#8 => .ok (.salsa20Xor r.outAddr r.inAddr r.length r.nonce r.key)
  | 0x13#8 => .ok (.salsa20XorIc r.outAddr r.inAddr r.length r.nonce r.counter r.key)
  | 0x20#8 => .ok (.sha512Init r.ctx)
  | 0x21#8 => .ok (.sha512Update r.ctx r.inAddr)
  | 0x22#8 => .ok (.sha512UpdateMulti r.ctx r.inAddr r.n)
  | 0x23#8 => .ok (.sha512UpdateLast r.ctx r.inAddr r.length)
  | 0x24#8 => .ok (.sha512Finish r.ctx)
  | 0x25#8 => .ok (.sha512Hash r.inAddr r.length)
  | op => .error (.reservedOpcode op)

/-- The opcode byte of a command (R81). -/
def opcode : Instr → Byte
  | .salsa20Keystream .. => 0x10
  | .salsa20Stream .. => 0x11
  | .salsa20Xor .. => 0x12
  | .salsa20XorIc .. => 0x13
  | .sha512Init .. => 0x20
  | .sha512Update .. => 0x21
  | .sha512UpdateMulti .. => 0x22
  | .sha512UpdateLast .. => 0x23
  | .sha512Finish .. => 0x24
  | .sha512Hash .. => 0x25

/-- A record with the given opcode and no operands. -/
def bareRecord (op : Byte) : Record :=
  { op := op, ctx := 0, key := [], nonce := [], counter := 0, length := 0, n := 0, inAddr := 0, outAddr := 0 }

/-- The record of a command: its opcode and the fields of R82; a field the opcode does not list is left empty. -/
def encode (i : Instr) : Record :=
  let r := bareRecord (opcode i)
  match i with
  | .salsa20Keystream nonce counter key => { r with nonce := nonce, counter := counter, key := key }
  | .salsa20Stream outAddr length nonce key =>
    { r with outAddr := outAddr, length := length, nonce := nonce, key := key }
  | .salsa20Xor outAddr inAddr length nonce key =>
    { r with outAddr := outAddr, inAddr := inAddr, length := length, nonce := nonce, key := key }
  | .salsa20XorIc outAddr inAddr length nonce counter key =>
    { r with
      outAddr := outAddr, inAddr := inAddr, length := length, nonce := nonce, counter := counter, key := key }
  | .sha512Init ctx => { r with ctx := ctx }
  | .sha512Update ctx inAddr => { r with ctx := ctx, inAddr := inAddr }
  | .sha512UpdateMulti ctx inAddr n => { r with ctx := ctx, inAddr := inAddr, n := n }
  | .sha512UpdateLast ctx inAddr length => { r with ctx := ctx, inAddr := inAddr, length := length }
  | .sha512Finish ctx => { r with ctx := ctx }
  | .sha512Hash inAddr length => { r with inAddr := inAddr, length := length }

/-- The record whose opcode byte is the low byte of `w` and whose operand fields are zeros at the widths
spec/opcode_table.json gives them: 32 key bytes, 8 nonce bytes, every number 0 (notes/assumptions/4.md). -/
def tableRecord (w : Nat) : Record :=
  { bareRecord (BitVec.ofNat 8 w) with key := List.replicate 32 0, nonce := List.replicate 8 0 }

/-- The command the decoder reads from the table's word `w` of `nbits` bits. The table numbers the eight bits of
the opcode byte and gives the operand fields none, so the operands are zeros whatever `nbits` is. -/
def decodeTableWord (_nbits w : Nat) : Option Instr :=
  match decode (tableRecord w) with
  | .ok i => some i
  | .error _ => none

end Sys2Proof
end

