-- ==== Sys2Proof/Config.lean ====
section
/-! DEFINITION. What an implementation fixes (00_scope R7) and the free values of the model.

A free value is an opaque constant: nothing in Lean can evaluate it, so a claim holds whatever it is. They
stand for what the transient registers hold after a command, which R43 leaves unspecified
(93_implementation_defined U11: any value; notes/assumptions/8.md). Each is applied to the number of residues
taken so far, so that no two commands are tied to one residue. -/

namespace Sys2Proof

/-- The open parameters of R7 that bound an operand: `NCTX`, and the widths `AW` and `LENW`, each a natural or
unbounded (`none`). `Binding` is the fourth; it carries the records of Sys2Proof/Record.lean unchanged. -/
structure Params where
  /-- number of SHA-512 contexts -/
  nctx : Nat
  /-- width of a `Mem` address -/
  aw : Option Nat
  /-- width of the `length` and `n` operands -/
  lenw : Option Nat
deriving DecidableEq, Repr

/-- What `X[0..15]` holds after a Salsa20 command (R21, R43). -/
opaque Config.residueX : Nat → Vector Word32 16

/-- What `IN[0..15]` holds after a Salsa20 command (R23, R43). -/
opaque Config.residueIN : Nat → Vector Word32 16

/-- What `KS[0..63]` holds after a Salsa20 command (R24, R43). -/
opaque Config.residueKS : Nat → Vector Byte 64

/-- What `DR` holds after a Salsa20 command; it stays in 0..10 (R26, R43). -/
opaque Config.residueDR : Nat → Fin 11

/-- What `QI` holds after a Salsa20 command; it stays in 0..7 (R26, R43). -/
opaque Config.residueQI : Nat → Fin 8

/-- What `BI` holds after a Salsa20 command (R26, R43). -/
opaque Config.residueBI : Nat → Nat

/-- What `a..h` hold after a compressing SHA-512 command (R39, R43). -/
opaque Config.residueVars : Nat → Vector Word64 8

/-- What `T1` holds after a compressing SHA-512 command (R39, R43). -/
opaque Config.residueT1 : Nat → Word64

/-- What `T2` holds after a compressing SHA-512 command (R39, R43). -/
opaque Config.residueT2 : Nat → Word64

/-- What `W[0..79]` holds after a compressing SHA-512 command (R40, R43). -/
opaque Config.residueW : Nat → Vector Word64 80

/-- What `PADBUF` holds after a compressing SHA-512 command; its readers keep at most 256 bytes (R40, R43). -/
opaque Config.residuePadbuf : Nat → List Byte

/-- What `T` holds after a compressing SHA-512 command; it stays in 0..80 (R26, R43). -/
opaque Config.residueT : Nat → Fin 81

/-- What `BJ` holds after a compressing SHA-512 command (R26, R43). -/
opaque Config.residueBJ : Nat → Nat

end Sys2Proof
end

