-- ==== Sys2Proof/Machine/State.lean ====
section
/-! DEFINITION. The machine's state as plain data (10_state R20 to R44), its reset value (70_reset_and_hazards
R230) and the reasons a step can stop. -/

namespace Sys2Proof.Machine

/-- `PHASE`: the position of a context in its life cycle (R35). -/
inductive Phase where
  /-- code 0: no `SHA512_INIT` since reset -/
  | uninit
  /-- code 1: after `SHA512_INIT` -/
  | fresh
  /-- code 2: after zero or more full-block updates -/
  | absorbing
  /-- code 3: after `SHA512_UPDATE_LAST`, before `SHA512_FINISH` -/
  | padded
  /-- code 4: after `SHA512_FINISH` -/
  | finalized
deriving DecidableEq, Repr

/-- The four causes of an exception (60_exceptions R201). -/
inductive Cause where
  /-- reserved opcode, or a context index not below `NCTX` (R202) -/
  | illegalCommand
  /-- key not 32 bytes, nonce not 8 bytes, or a tail of more than 127 bytes (R203) -/
  | sizeMismatch
  /-- the command is not legal in the context's phase (R204) -/
  | orderViolation
  /-- a non-empty buffer does not fit in `Mem`, or input and output overlap without being identical (R205) -/
  | bufferViolation
deriving DecidableEq, Repr

/-- `RSP`: the response of one command (R29). -/
structure Response where
  /-- 0 for `OK`, otherwise a cause code (R90, R201) -/
  status : Byte
  /-- the 64-byte block or digest, or empty -/
  value : List Byte
deriving DecidableEq, Repr

/-- One SHA-512 context `S[s]` (R34 to R38). -/
structure Context where
  phase : Phase
  /-- hash words `H[0..7]` -/
  h : Vector Word64 8
  /-- bit-length counter `LEN` -/
  len : Word128
  /-- block buffer `BUF`, always empty between commands (R38) -/
  buf : List Byte
deriving DecidableEq, Repr

/-- The transient registers of the Salsa20 engine (R21, R23, R24, R26). -/
structure SalsaRegs where
  /-- working matrix `X[0..15]`, row-major -/
  x : Vector Word32 16
  /-- input matrix `IN[0..15]` -/
  inp : Vector Word32 16
  /-- keystream block `KS[0..63]` -/
  ks : Vector Byte 64
  /-- double-rounds done on the block -/
  dr : Fin 11
  /-- quarter-round within the double-round -/
  qi : Fin 8
  /-- index of the block within the command -/
  bi : Nat
deriving DecidableEq, Repr

/-- The transient registers of the SHA-512 engine (R26, R39, R40). -/
structure ShaRegs where
  a : Word64
  b : Word64
  c : Word64
  d : Word64
  e : Word64
  f : Word64
  g : Word64
  h : Word64
  t1 : Word64
  t2 : Word64
  /-- message schedule `W[0..79]` -/
  w : Vector Word64 80
  /-- tail and padding, at most 256 bytes -/
  padbuf : List Byte
  /-- step index -/
  t : Fin 81
  /-- index of the block within the command -/
  bj : Nat
deriving DecidableEq, Repr

/-- Host memory as the (address, byte) pairs that differ from what an unlisted address reads as, addresses
strictly rising (R41; the form is `memoryWf` of Machine/Ops.lean). -/
abbrev Memory := List Host.Cell

/-- The state. The block's persistent state is `ctxs` alone (R20); `salsa` and `sha` are its transient registers;
`cmdQueue`, `rspLog` and `mem` are at the host's side of the interface; `aw` and `lenw` are parameters; `faults`
and `residueTick` are the model's own. -/
structure State where
  /-- the contexts `S[0..NCTX-1]`; `NCTX` is the length of this list (R34) -/
  ctxs : List Context
  /-- transient registers of the Salsa20 engine -/
  salsa : SalsaRegs
  /-- transient registers of the SHA-512 engine -/
  sha : ShaRegs
  /-- commands the host issues, oldest first; the head is the `CMD` the block takes next (R25, R28, R65) -/
  cmdQueue : List Record
  /-- every `RSP` delivered so far, newest last; the block only appends (R29) -/
  rspLog : List Response
  /-- the faults the model records, newest last (R18, R212) -/
  faults : List Cause
  /-- the host buffer space `Mem` (R41) -/
  mem : Memory
  /-- parameter `AW`, `none` when unbounded (R7) -/
  aw : Option Nat
  /-- parameter `LENW`, `none` when unbounded (R7) -/
  lenw : Option Nat
  /-- how many residues of transient registers have been taken from Config (R43) -/
  residueTick : Nat
deriving DecidableEq, Repr

/-- Reasons a step stops with a fault: there are none. Every exception of the spec is taken and answered with a
status (R200, R210), and no access inside a fitting footprint fails (R206 g). -/
inductive Fault where
deriving DecidableEq, Repr

/-- Reasons a step has no meaning. -/
inductive Refusal where
  /-- Raised by an arm of Machine/Dispatch.lean whose instruction has no meaning yet; no arm does. Safe: the run
  ends where the hardware would go on. -/
  | notModelled (mnemonic : String)
deriving DecidableEq, Repr

/-- A context after reset: `UNINIT`, `BUF` empty (R230). `H` and `LEN` are unspecified there; the model holds 0
(DESIGN CHOICE, unsafe, notes/assumptions/6.md). -/
def Context.reset : Context :=
  { phase := .uninit, h := Vector.replicate 8 0, len := 0, buf := [] }

/-- The Salsa20 registers after reset: unspecified by R230; the model holds 0 (DESIGN CHOICE, unsafe,
notes/assumptions/7.md). -/
def SalsaRegs.reset : SalsaRegs :=
  { x := Vector.replicate 16 0, inp := Vector.replicate 16 0, ks := Vector.replicate 64 0, dr := 0, qi := 0,
    bi := 0 }

/-- The SHA-512 working registers after reset: unspecified by R230; the model holds 0 (DESIGN CHOICE, unsafe,
notes/assumptions/7.md). -/
def ShaRegs.reset : ShaRegs :=
  { a := 0, b := 0, c := 0, d := 0, e := 0, f := 0, g := 0, h := 0, t1 := 0, t2 := 0,
    w := Vector.replicate 80 0, padbuf := [], t := 0, bj := 0 }

/-- The machine after reset under the parameters `p`: every context reset, no command pending, no response owed,
`Mem` as the host holds it (R230). -/
def State.resetWith (p : Params) (mem : Memory) : State :=
  { ctxs := List.replicate p.nctx Context.reset, salsa := SalsaRegs.reset, sha := ShaRegs.reset, cmdQueue := [],
    rspLog := [], faults := [], mem := mem, aw := p.aw, lenw := p.lenw, residueTick := 0 }

/-- The machine right after reset, at `NCTX = 2` and `AW = 16`, the parameters of the spec's own runs
(95_test_vectors section 7), `LENW` unbounded, and nothing listed in memory (DESIGN CHOICE,
notes/assumptions/5.md and 9.md). -/
def State.reset : State :=
  State.resetWith { nctx := 2, aw := some 16, lenw := none } []

end Sys2Proof.Machine
end

