-- ==== Sys2Proof/Machine/Flags.lean ====
section
/-! DEFINITION. The block has no flags and no condition codes (10_state R27). The only status is `RSP.status`;
its codes stand here (30_encoding R90, 60_exceptions R201), with the codes of `PHASE` (10_state R35). -/

namespace Sys2Proof.Machine

/-- `RSP.status` of a command without exception (R90). -/
def okCode : Byte := 0x00

/-- `RSP.status` of an exception (R90, R201). -/
def causeCode : Cause → Byte
  | .illegalCommand => 0x01
  | .sizeMismatch => 0x02
  | .orderViolation => 0x03
  | .bufferViolation => 0x04

/-- The code of a phase (R35). -/
def phaseCode : Phase → BitVec 3
  | .uninit => 0
  | .fresh => 1
  | .absorbing => 2
  | .padded => 3
  | .finalized => 4

end Sys2Proof.Machine
end

