-- ==== Sys2Proof/Machine/Ops.lean ====
section
/-! DEFINITION. The named operations over memory, contexts, responses and exceptions that every command uses. -/

namespace Sys2Proof.Machine

/-- What an address that memory does not list reads as. The spec gives `Mem` no power-on contents and lets no
access inside a fitting footprint fail (60_exceptions R206 g): 0 (DESIGN CHOICE, unsafe, notes/assumptions/9.md). -/
def unlistedByte : Byte := 0

/-- `Mem[a]`. -/
def readByte : Memory → Nat → Byte
  | [], _ => unlistedByte
  | (b, v) :: m, a => if b = a then v else readByte m a

/-- `Mem[a] <- v`, keeping the canonical form. -/
def writeByte : Memory → Nat → Byte → Memory
  | [], a, v => if v = unlistedByte then [] else [(a, v)]
  | (b, u) :: m, a, v =>
    if a < b then (if v = unlistedByte then (b, u) :: m else (a, v) :: (b, u) :: m)
    else if a = b then (if v = unlistedByte then m else (a, v) :: m)
    else (b, u) :: writeByte m a v

/-- Addresses rise strictly from `lo` on, and no entry equals what an unlisted address reads as. -/
def memoryWfFrom : Nat → Memory → Bool
  | _, [] => true
  | lo, (b, v) :: m => decide (lo ≤ b) && decide (v ≠ unlistedByte) && memoryWfFrom (b + 1) m

/-- The canonical form of memory. -/
def memoryWf (m : Memory) : Bool := memoryWfFrom 0 m

/-- `MemRead(a, n)` (00_scope R17): `n` bytes, index 0 the byte at `a`. Commands call it on footprints that fit. -/
def memRead (m : Memory) (a : Nat) : Nat → List Byte
  | 0 => []
  | n + 1 => readByte m a :: memRead m (a + 1) n

/-- `MemWrite(a, len(B), B)` (00_scope R17), one byte after another in ascending order. -/
def memWrite (m : Memory) (a : Nat) : List Byte → Memory
  | [] => m
  | v :: b => memWrite (writeByte m a v) (a + 1) b

/-- `NCTX` (R7, R34). -/
def nctx (s : State) : Nat := s.ctxs.length

/-- The parameters in force. -/
def params (s : State) : Params := { nctx := nctx s, aw := s.aw, lenw := s.lenw }

/-- `S[i]`. Commands call it with `i < NCTX`; a context that does not exist reads as a reset one. -/
def ctxAt (s : State) (i : Nat) : Context := s.ctxs.getD i Context.reset

/-- `S[i] <- c`. -/
def setCtx (s : State) (i : Nat) (c : Context) : State := { s with ctxs := s.ctxs.set i c }

/-- The command ends without exception: `RSP.status <- OK`, `RSP.value <- value` (10_state R29, R90). -/
def respond (value : List Byte) (s : State) : State :=
  { s with rspLog := s.rspLog ++ [{ status := okCode, value := value }] }

/-- TAKING AN EXCEPTION (00_scope R18, 60_exceptions R202 to R205, R210): nothing the block or the host holds
changes, the response carries the cause code with an empty value, and the model records a fault (R212). Nothing is
saved, no mode changes, no vector is fetched; so there is no return from an exception (R211): the block is ready
for the next command. -/
def takeException (c : Cause) (s : State) : State :=
  { s with rspLog := s.rspLog ++ [{ status := causeCode c, value := [] }], faults := s.faults ++ [c] }

/-- The cause of the first check that fails; the checks stand in the priority order of 60_exceptions R209. -/
def firstFailure : List (Bool × Cause) → Option Cause
  | [] => none
  | (holds, c) :: rest => if holds then firstFailure rest else some c

/-- One command (60_exceptions R210): all checks come before all effects; the first that fails is taken as an
exception; otherwise the effect happens whole and its value is the response. -/
def command (checks : List (Bool × Cause)) (effect : State → State × List Byte) (s : State) :
    Host.Outcome State Fault Refusal :=
  match firstFailure checks with
  | some c => .next (takeException c s)
  | none => .next (respond (effect s).2 (effect s).1)

/-- What the Salsa20 registers hold after a command that ran the engine: unspecified (10_state R43), a free value
(notes/assumptions/8.md). -/
def salsaResidue (tick : Nat) : SalsaRegs :=
  { x := Config.residueX tick, inp := Config.residueIN tick, ks := Config.residueKS tick,
    dr := Config.residueDR tick, qi := Config.residueQI tick, bi := Config.residueBI tick }

/-- What the SHA-512 working registers hold after a command that ran the engine: unspecified (10_state R43), a free
value (notes/assumptions/8.md). -/
def shaResidue (tick : Nat) : ShaRegs :=
  let v := Config.residueVars tick
  { a := v[0], b := v[1], c := v[2], d := v[3], e := v[4], f := v[5], g := v[6], h := v[7],
    t1 := Config.residueT1 tick, t2 := Config.residueT2 tick, w := Config.residueW tick,
    padbuf := (Config.residuePadbuf tick).take 256, t := Config.residueT tick, bj := Config.residueBJ tick }

/-- The Salsa20 registers lose their contents (10_state R20 b, R43). -/
def retireSalsa (s : State) : State :=
  { s with salsa := salsaResidue s.residueTick, residueTick := s.residueTick + 1 }

/-- The SHA-512 working registers lose their contents (10_state R20 b, R43). -/
def retireSha (s : State) : State :=
  { s with sha := shaResidue s.residueTick, residueTick := s.residueTick + 1 }

/-- With no command pending the block is idle: nothing changes (70_reset_and_hazards R231). -/
def idle (s : State) : State := s

/-- A record whose opcode is reserved raises `IllegalCommand` (30_encoding R86, 60_exceptions R202). -/
def reservedOpcode (s : State) : State := takeException .illegalCommand s

/-- The host's oldest command is taken by the block (10_state R25, R28): it leaves the queue. -/
def takeCommand (rest : List Record) (s : State) : State := { s with cmdQueue := rest }

/-- The host issues a command before those it has queued. -/
def issueFirst (r : Record) (s : State) : State := { s with cmdQueue := r :: s.cmdQueue }

end Sys2Proof.Machine
end

