-- ==== Sys2Proof/Machine/Primitives.lean ====
section
/-! DEFINITION. The primitive operations of 00_scope R12 to R16: modular addition, rotations, shifts, bitwise
functions, and conversion between words and bytes. -/

namespace Sys2Proof.Machine

/-- `(a + b) mod 2^32` (R12). -/
def add32 (a b : Word32) : Word32 := a + b

/-- Bitwise exclusive or of two `u32` (R12). -/
def xor32 (a b : Word32) : Word32 := a ^^^ b

/-- Left rotation, `0 < n < 32`: bit `i` moves to bit `(i + n) mod 32` (R12). -/
def rotl32 (a : Word32) (n : Nat) : Word32 := (a <<< n) ||| (a >>> (32 - n))

/-- `(a + b) mod 2^64` (R13, R14). -/
def add64 (a b : Word64) : Word64 := a + b

/-- Bitwise exclusive or of two `u64` (R13). -/
def xor64 (a b : Word64) : Word64 := a ^^^ b

/-- Bitwise and of two `u64` (R13). -/
def and64 (a b : Word64) : Word64 := a &&& b

/-- 64-bit complement (R13). -/
def not64 (a : Word64) : Word64 := ~~~a

/-- Right rotation, `0 < n < 64`: bit `i` moves to bit `(i - n) mod 64` (R13). -/
def rotr64 (a : Word64) (n : Nat) : Word64 := (a >>> n) ||| (a <<< (64 - n))

/-- Logical right shift: zeros enter at the top (R13). -/
def shr64 (a : Word64) (n : Nat) : Word64 := a >>> n

/-- `(a + b) mod 2^128` (R14). -/
def add128 (a b : Word128) : Word128 := a + b

/-- Bitwise exclusive or of two bytes (41_salsa20_stream R122). -/
def xor8 (a b : Byte) : Byte := a ^^^ b

/-- `n` bytes of value 0 (R10). -/
def zeros (n : Nat) : List Byte := List.replicate n 0

/-- `B[i]` of a byte string (R10). Every use stands inside the string; outside it reads 0. -/
def byteAt (b : List Byte) (i : Nat) : Byte := b.getD i 0

/-- Four bytes from offset `o`, the first the least significant (R16). -/
def le32Load (b : List Byte) (o : Nat) : Word32 :=
  byteAt b (o + 3) ++ byteAt b (o + 2) ++ byteAt b (o + 1) ++ byteAt b o

/-- Byte `m` of a `u32`, byte 0 the least significant: `v[8m+7 : 8m]` (R16, R53). -/
def le32Byte (v : Word32) (m : Nat) : Byte := v.extractLsb' (8 * m) 8

/-- The four bytes of a `u32`, the least significant first (R16). -/
def le32Store (v : Word32) : List Byte := [le32Byte v 0, le32Byte v 1, le32Byte v 2, le32Byte v 3]

/-- Eight bytes from offset `o`, the first the most significant (R16). -/
def be64Load (b : List Byte) (o : Nat) : Word64 :=
  byteAt b o ++ byteAt b (o + 1) ++ byteAt b (o + 2) ++ byteAt b (o + 3) ++ byteAt b (o + 4) ++
    byteAt b (o + 5) ++ byteAt b (o + 6) ++ byteAt b (o + 7)

/-- The eight bytes of a `u64`, the most significant first (R16). -/
def be64Store (v : Word64) : List Byte :=
  [v.extractLsb' 56 8, v.extractLsb' 48 8, v.extractLsb' 40 8, v.extractLsb' 32 8, v.extractLsb' 24 8,
    v.extractLsb' 16 8, v.extractLsb' 8 8, v.extractLsb' 0 8]

/-- The sixteen bytes of a `u128`, the most significant first (R16). -/
def be128Store (v : Word128) : List Byte :=
  be64Store (v.extractLsb' 64 64) ++ be64Store (v.extractLsb' 0 64)

end Sys2Proof.Machine
end

