-- ==== Sys2Proof/Machine/Operands.lean ====
section
/-! DEFINITION. How operands are checked (30_encoding R85, 20_memory R61, R62, 43_sha512_stream R171, R185) and how
they reach the datapath (30_encoding R84, 20_memory R51, R52). -/

namespace Sys2Proof.Machine

/-- `len(key) = 32` and `len(nonce) = 8` (R85). -/
def keySizesOk (key nonce : List Byte) : Bool := decide (key.length = 32) && decide (nonce.length = 8)

/-- `length` may be 0..127 (R85, R177). -/
def tailSizeOk (length : Nat) : Bool := decide (length ≤ 127)

/-- `ctx < NCTX` (R85, R171). -/
def ctxOk (s : State) (ctx : Nat) : Bool := decide (ctx < nctx s)

/-- A footprint of `n` bytes at `a` fits: `a + n <= 2^AW`; an empty one is not examined (R62). -/
def footprintFits (s : State) (a n : Nat) : Bool :=
  decide (n = 0) ||
    match s.aw with
    | none => true
    | some w => decide (a + n ≤ 2 ^ w)

/-- Input and output ranges are identical or disjoint; empty ones are not examined (R61). -/
def aliasingOk (inAddr outAddr length : Nat) : Bool :=
  decide (length = 0) || decide (inAddr = outAddr) || decide (inAddr + length ≤ outAddr) ||
    decide (outAddr + length ≤ inAddr)

/-- Phases in which blocks and the tail may be absorbed (R173, R177, R185). -/
def absorbsIn : Phase → Bool
  | .uninit => false
  | .fresh => true
  | .absorbing => true
  | .padded => false
  | .finalized => false

/-- The phase in which the digest may be taken (R181, R185). -/
def finishesIn : Phase → Bool
  | .uninit => false
  | .fresh => false
  | .absorbing => false
  | .padded => true
  | .finalized => false

/-- `k[j]` (R51). -/
def keyWord (key : List Byte) (j : Nat) : Word32 := le32Load key (4 * j)

/-- `n[j]` (R51). -/
def nonceWord (nonce : List Byte) (j : Nat) : Word32 := le32Load nonce (4 * j)

/-- `c[0] = counter[31:0]` (R52). -/
def counterLow (counter : Word64) : Word32 := counter.extractLsb' 0 32

/-- `c[1] = counter[63:32]` (R52). -/
def counterHigh (counter : Word64) : Word32 := counter.extractLsb' 32 32

/-- The counter of block `i`: `(c0 + i) mod 2^64` (41_salsa20_stream R121). -/
def blockCounter (c0 : Word64) (i : Nat) : Word64 := add64 c0 (BitVec.ofNat 64 i)

/-- `ceil(length / 64)` (R84). -/
def salsaBlocks (length : Nat) : Nat := (length + 63) / 64

/-- Bytes of block `i` that are used: `min(64, length - 64*i)` (41_salsa20_stream R122). -/
def usedBytes (length i : Nat) : Nat := min 64 (length - 64 * i)

/-- One input byte: `Mem[in_addr + p]`, or 0 where the input is the all-zero virtual one (41_salsa20_stream R123). -/
def inputByte (inAddr : Option Nat) (m : Memory) (p : Nat) : Byte :=
  match inAddr with
  | none => 0
  | some a => readByte m (a + p)

end Sys2Proof.Machine
end

