-- ==== Sys2Proof/Machine/Salsa20Core.lean ====
section
/-! DEFINITION. The Salsa20 datapath (40_salsa20_core R100 to R112): micro-operations on the registers `X`, `IN`,
`KS` and the sequencing counters, which touch nothing else. -/

namespace Sys2Proof.Machine

/-- `QR(a, b, c, d)`: four updates in order, each using the values already updated (R101). -/
def quarterRound (a b c d : Word32) : Word32 × Word32 × Word32 × Word32 :=
  let b' := xor32 b (rotl32 (add32 a d) 7)
  let c' := xor32 c (rotl32 (add32 b' a) 9)
  let d' := xor32 d (rotl32 (add32 c' b') 13)
  let a' := xor32 a (rotl32 (add32 d' c') 18)
  (a', b', c', d')

/-- `(X[i0], X[i1], X[i2], X[i3]) <- QR(X[i0], X[i1], X[i2], X[i3])` (R103, R104), as quarter-round `q` of the
double-round (R26). -/
def quarterRoundAt (q : Fin 8) (i0 i1 i2 i3 : Fin 16) (r : SalsaRegs) : SalsaRegs :=
  let y := quarterRound r.x[i0] r.x[i1] r.x[i2] r.x[i3]
  { r with x := (((r.x.set i0 y.1).set i1 y.2.1).set i2 y.2.2.1).set i3 y.2.2.2, qi := q }

/-- `COLUMNROUND` (R103). -/
def columnRound (r : SalsaRegs) : SalsaRegs :=
  quarterRoundAt 3 15 3 7 11
    (quarterRoundAt 2 10 14 2 6 (quarterRoundAt 1 5 9 13 1 (quarterRoundAt 0 0 4 8 12 r)))

/-- `ROWROUND` (R104). -/
def rowRound (r : SalsaRegs) : SalsaRegs :=
  quarterRoundAt 7 15 12 13 14
    (quarterRoundAt 6 10 11 8 9 (quarterRoundAt 5 5 6 7 4 (quarterRoundAt 4 0 1 2 3 r)))

/-- `DOUBLEROUND`: the columns, then the rows (R106). -/
def doubleRound (r : SalsaRegs) : SalsaRegs := rowRound (columnRound r)

/-- `ROUNDS`: ten double-rounds, counted in `DR` (R107). -/
def rounds (r : SalsaRegs) : SalsaRegs :=
  Nat.fold 10 (fun k hk r => { doubleRound r with dr := ⟨k + 1, Nat.succ_lt_succ hk⟩ }) { r with dr := 0 }

/-- The input matrix of R105: constants on the diagonal, key, nonce and counter words between. -/
def inputMatrix (key nonce : List Byte) (ctr : Word64) : Vector Word32 16 :=
  #v[sigma[0], keyWord key 0, keyWord key 1, keyWord key 2,
    keyWord key 3, sigma[1], nonceWord nonce 0, nonceWord nonce 1,
    counterLow ctr, counterHigh ctr, sigma[2], keyWord key 4,
    keyWord key 5, keyWord key 6, keyWord key 7, sigma[3]]

/-- `IN <- m; X <- m` (R105, R111). -/
def loadWords (m : Vector Word32 16) (r : SalsaRegs) : SalsaRegs := { r with inp := m, x := m }

/-- `LOADMATRIX(key, nonce, ctr)` (R105). -/
def loadMatrix (key nonce : List Byte) (ctr : Word64) (r : SalsaRegs) : SalsaRegs :=
  loadWords (inputMatrix key nonce ctr) r

/-- `FEEDFORWARD`: `X[i] <- add32(X[i], IN[i])` for `i = 0..15` (R108). -/
def feedForward (r : SalsaRegs) : SalsaRegs :=
  Nat.fold 16 (fun i hi r => { r with x := r.x.set i (add32 r.x[i] r.inp[i]) }) r

/-- `SERIALIZE`: `KS[4j + m]` is byte `m` of `X[j]`, the least significant first (R53, R109). -/
def serialize (r : SalsaRegs) : SalsaRegs :=
  { r with ks := Vector.ofFn fun p : Fin 64 =>
      le32Byte (r.x[p.val / 4]'(by have := p.isLt; omega)) (p.val % 4) }

/-- `CORE(in)`: load, rounds, feed-forward (R111). -/
def salsaCore (m : Vector Word32 16) (r : SalsaRegs) : SalsaRegs := feedForward (rounds (loadWords m r))

/-- `CORE_BYTES(B)` for a 64-byte `B`; the result is left in `KS` (R111). -/
def coreBytes (b : List Byte) (r : SalsaRegs) : SalsaRegs :=
  serialize (salsaCore (Vector.ofFn fun i : Fin 16 => le32Load b (4 * i)) r)

/-- `SALSA20_BLOCK(key, nonce, ctr)`; the block is left in `KS` (R110). -/
def salsa20Block (key nonce : List Byte) (ctr : Word64) (r : SalsaRegs) : SalsaRegs :=
  serialize (feedForward (rounds (loadMatrix key nonce ctr r)))

end Sys2Proof.Machine
end

