-- ==== Sys2Proof/Machine/Salsa20.lean ====
section
/-! DEFINITION. The four Salsa20 commands (41_salsa20_stream R120 to R132). -/

namespace Sys2Proof.Machine

/-- What the block loop works on: the engine's registers and `Mem`. -/
structure SalsaEngine where
  regs : SalsaRegs
  mem : Memory
deriving DecidableEq, Repr

/-- Byte `j` of block `i`: read the input byte, then write it exclusive-or `KS[j]` (R60, R122, R123). -/
def xorByte (outAddr : Nat) (inAddr : Option Nat) (i : Nat) (j : Fin 64) (e : SalsaEngine) : SalsaEngine :=
  let p := 64 * i + j
  { e with mem := writeByte e.mem (outAddr + p) (xor8 (inputByte inAddr e.mem p) e.regs.ks[j]) }

/-- Block `i`: compute its keystream into `KS`, then the bytes of the block in ascending order (R123). -/
def xorBlock (outAddr : Nat) (inAddr : Option Nat) (length : Nat) (nonce : List Byte) (c0 : Word64)
    (key : List Byte) (i : Nat) (e : SalsaEngine) : SalsaEngine :=
  let regs := salsa20Block key nonce (blockCounter c0 i) { e.regs with bi := i }
  Nat.fold (usedBytes length i)
    (fun j hj e => xorByte outAddr inAddr i ⟨j, Nat.lt_of_lt_of_le hj (Nat.min_le_left _ _)⟩ e)
    { e with regs := regs }

/-- The block loop shared by the three XOR commands (R123); `inAddr = none` is the all-zero virtual input. -/
def xorLoop (outAddr : Nat) (inAddr : Option Nat) (length : Nat) (nonce : List Byte) (c0 : Word64)
    (key : List Byte) (e : SalsaEngine) : SalsaEngine :=
  Nat.fold (salsaBlocks length) (fun i _ e => xorBlock outAddr inAddr length nonce c0 key i e) e

/-- Effect of an XOR command on the state: `Mem` and the engine's registers, which then lose their contents; no
response value (R125). -/
def xorEffect (outAddr : Nat) (inAddr : Option Nat) (length : Nat) (nonce : List Byte) (c0 : Word64)
    (key : List Byte) (s : State) : State × List Byte :=
  let e := xorLoop outAddr inAddr length nonce c0 key { regs := s.salsa, mem := s.mem }
  (retireSalsa { s with mem := e.mem, salsa := e.regs }, [])

/-- Checks and effect of `SALSA20_XOR_IC` (R125): sizes, fit of both buffers, aliasing. -/
def xorIc (outAddr inAddr length : Nat) (nonce : List Byte) (counter : Word64) (key : List Byte) (s : State) :
    Host.Outcome State Fault Refusal :=
  command
    [(keySizesOk key nonce, .sizeMismatch),
      (footprintFits s inAddr length && footprintFits s outAddr length, .bufferViolation),
      (aliasingOk inAddr outAddr length, .bufferViolation)]
    (xorEffect outAddr (some inAddr) length nonce counter key) s

/-- `SALSA20_KEYSTREAM`: `RSP.value <- SALSA20_BLOCK(key, nonce, counter)` (R120). -/
def execSalsa20Keystream (nonce : List Byte) (counter : Word64) (key : List Byte) (s : State) :
    Host.Outcome State Fault Refusal :=
  command [(keySizesOk key nonce, .sizeMismatch)]
    (fun s =>
      let r := salsa20Block key nonce counter s.salsa
      (retireSalsa { s with salsa := r }, r.ks.toList)) s

/-- `SALSA20_STREAM`: the block loop from counter 0 on the all-zero virtual input (R127). -/
def execSalsa20Stream (outAddr length : Nat) (nonce key : List Byte) (s : State) :
    Host.Outcome State Fault Refusal :=
  command [(keySizesOk key nonce, .sizeMismatch), (footprintFits s outAddr length, .bufferViolation)]
    (xorEffect outAddr none length nonce 0 key) s

/-- `SALSA20_XOR`: exactly `SALSA20_XOR_IC` with `counter = 0` (R126). -/
def execSalsa20Xor (outAddr inAddr length : Nat) (nonce key : List Byte) (s : State) :
    Host.Outcome State Fault Refusal :=
  xorIc outAddr inAddr length nonce 0 key s

/-- `SALSA20_XOR_IC` (R125). -/
def execSalsa20XorIc (outAddr inAddr length : Nat) (nonce : List Byte) (counter : Word64) (key : List Byte)
    (s : State) : Host.Outcome State Fault Refusal :=
  xorIc outAddr inAddr length nonce counter key s

end Sys2Proof.Machine
end

