-- ==== Sys2Proof/Machine/Sha512Core.lean ====
section
/-! DEFINITION. The SHA-512 datapath (42_sha512_compress R140 to R156): micro-operations on the working registers
and the hash words, which touch nothing else. -/

namespace Sys2Proof.Machine

/-- "Choose": the bit of `y` where `x` has 1, of `z` where `x` has 0 (R143). -/
def ch (x y z : Word64) : Word64 := xor64 (and64 x y) (and64 (not64 x) z)

/-- "Majority" of the three bits (R144). -/
def maj (x y z : Word64) : Word64 := xor64 (xor64 (and64 x y) (and64 x z)) (and64 y z)

/-- Σ0 (R145). -/
def bsig0 (x : Word64) : Word64 := xor64 (xor64 (rotr64 x 28) (rotr64 x 34)) (rotr64 x 39)

/-- Σ1 (R146). -/
def bsig1 (x : Word64) : Word64 := xor64 (xor64 (rotr64 x 14) (rotr64 x 18)) (rotr64 x 41)

/-- σ0: the third term is a shift (R147). -/
def ssig0 (x : Word64) : Word64 := xor64 (xor64 (rotr64 x 1) (rotr64 x 8)) (shr64 x 7)

/-- σ1: the third term is a shift (R148). -/
def ssig1 (x : Word64) : Word64 := xor64 (xor64 (rotr64 x 19) (rotr64 x 61)) (shr64 x 6)

/-- `SCHED_LOAD(M)`: `W[t] <- be64_load(M, 8*t)` for `t = 0..15` (R149). -/
def schedLoad (block : List Byte) (r : ShaRegs) : ShaRegs :=
  Nat.fold 16 (fun t _ r => { r with w := r.w.set t (be64Load block (8 * t)) }) r

/-- The word `W[t]` of the recurrence, `t = 16 + j` (R150). -/
def schedWord (w : Vector Word64 80) (j : Nat) (hj : j < 64) : Word64 :=
  add64 (add64 (add64 (ssig1 w[j + 14]) w[j + 9]) (ssig0 w[j + 1])) w[j]

/-- `SCHED_EXPAND`: `W[t]` for `t = 16..79` in ascending order (R150). -/
def schedExpand (r : ShaRegs) : ShaRegs :=
  Nat.fold 64 (fun j hj r => { r with w := r.w.set (j + 16) (schedWord r.w j hj) }) r

/-- `LOAD_VARS` (R151). -/
def loadVars (hash : Vector Word64 8) (r : ShaRegs) : ShaRegs :=
  { r with
    a := hash[0], b := hash[1], c := hash[2], d := hash[3], e := hash[4], f := hash[5], g := hash[6],
    h := hash[7] }

/-- `STEP(t)`: every right-hand side uses the values from before the step (R153). `T` then counts one more step
(R26). -/
def shaStep (t : Fin 80) (r : ShaRegs) : ShaRegs :=
  let t1 := add64 (add64 (add64 (add64 r.h (bsig1 r.e)) (ch r.e r.f r.g)) (roundConstant t)) r.w[t]
  let t2 := add64 (bsig0 r.a) (maj r.a r.b r.c)
  { r with
    h := r.g, g := r.f, f := r.e, e := add64 r.d t1, d := r.c, c := r.b, b := r.a, a := add64 t1 t2,
    t1 := t1, t2 := t2, t := t.succ }

/-- `STEPS`: eighty steps, ascending (R152). -/
def shaSteps (r : ShaRegs) : ShaRegs :=
  Nat.fold 80 (fun t ht r => shaStep ⟨t, ht⟩ r) { r with t := 0 }

/-- `ADD_BACK` (R154). -/
def addBack (r : ShaRegs) (hash : Vector Word64 8) : Vector Word64 8 :=
  #v[add64 hash[0] r.a, add64 hash[1] r.b, add64 hash[2] r.c, add64 hash[3] r.d, add64 hash[4] r.e,
    add64 hash[5] r.f, add64 hash[6] r.g, add64 hash[7] r.h]

/-- The working registers after `SCHED_LOAD; SCHED_EXPAND; LOAD_VARS; STEPS` (R155). -/
def compressRegs (block : List Byte) (hash : Vector Word64 8) (r : ShaRegs) : ShaRegs :=
  shaSteps (loadVars hash (schedExpand (schedLoad block r)))

/-- What the SHA-512 commands work on: the working registers and one context. -/
structure ShaEngine where
  regs : ShaRegs
  ctx : Context
deriving DecidableEq, Repr

/-- `COMPRESS(s, M)` (R155): the hash words and the working registers, nothing else. -/
def compress (block : List Byte) (e : ShaEngine) : ShaEngine :=
  let r := compressRegs block e.ctx.h e.regs
  { regs := r, ctx := { e.ctx with h := addBack r e.ctx.h } }

end Sys2Proof.Machine
end

