-- ==== Sys2Proof/Machine/Sha512.lean ====
section
/-! DEFINITION. The six SHA-512 commands, the padding and the context state machine (43_sha512_stream R170 to
R188). The bodies work on a `ShaEngine`, so that `SHA512_HASH` runs them on a private context (R182). -/

namespace Sys2Proof.Machine

/-- The context `SHA512_INIT` leaves, whatever the context held (R170). -/
def initBody : Context := { phase := .fresh, h := iv, len := 0, buf := [] }

/-- `ABSORB(s, M)`: compress, then advance `LEN` by 1024 (R172). -/
def absorb (block : List Byte) (e : ShaEngine) : ShaEngine :=
  let e' := compress block e
  { e' with ctx := { e'.ctx with len := add128 e'.ctx.len 1024 } }

/-- The loop of R173: block `BJ` is the 128 bytes at `in_addr + 128*BJ`. -/
def absorbBlocks (m : Memory) (inAddr n : Nat) (e : ShaEngine) : ShaEngine :=
  Nat.fold n
    (fun bj _ e => absorb (memRead m (inAddr + 128 * bj) 128) { e with regs := { e.regs with bj := bj } }) e

/-- Body of `SHA512_UPDATE_MULTI` (R173). -/
def updateMultiBody (m : Memory) (inAddr n : Nat) (e : ShaEngine) : ShaEngine :=
  let e' := absorbBlocks m inAddr n e
  { e' with ctx := { e'.ctx with phase := .absorbing } }

/-- How many zero bytes the padding of an `L`-byte tail has: 111 - `L` up to 111, 239 - `L` above (R175). -/
def padZeros (tailLength : Nat) : Nat := if tailLength ≤ 111 then 111 - tailLength else 239 - tailLength

/-- `PAD(tail, bits_before)` (R175): tail, `0x80`, zeros, 16-byte big-endian bit length of the whole message. -/
def pad (tail : List Byte) (bitsBefore : Word128) : List Byte :=
  tail ++ [0x80] ++ zeros (padZeros tail.length) ++
    be128Store (add128 bitsBefore (BitVec.ofNat 128 (8 * tail.length)))

/-- Bytes `[o, o + 128)` of a byte string (R10). -/
def blockAt (b : List Byte) (o : Nat) : List Byte := (b.drop o).take 128

/-- Compress the one or two blocks of `PADBUF` in order; `LEN` is not advanced by them (R179). -/
def compressPadbuf (e : ShaEngine) : ShaEngine :=
  Nat.fold (e.regs.padbuf.length / 128)
    (fun bj _ x => compress (blockAt x.regs.padbuf (128 * bj)) { x with regs := { x.regs with bj := bj } }) e

/-- Body of `SHA512_UPDATE_LAST` (R177): `PADBUF` is built from `LEN` as it was before the command (R178). -/
def updateLastBody (m : Memory) (inAddr length : Nat) (e : ShaEngine) : ShaEngine :=
  let padbuf := pad (memRead m inAddr length) e.ctx.len
  let e' := compressPadbuf { e with regs := { e.regs with padbuf := padbuf } }
  { e' with
    ctx := { e'.ctx with
      len := add128 e'.ctx.len (BitVec.ofNat 128 (8 * length)), buf := [], phase := .padded } }

/-- The digest: `be64_store(H[0]) ++ .. ++ be64_store(H[7])` (R55, R181). -/
def digest (hash : Vector Word64 8) : List Byte :=
  be64Store hash[0] ++ be64Store hash[1] ++ be64Store hash[2] ++ be64Store hash[3] ++ be64Store hash[4] ++
    be64Store hash[5] ++ be64Store hash[6] ++ be64Store hash[7]

/-- The context `SHA512_FINISH` leaves: only `PHASE` changes (R181). -/
def finishBody (c : Context) : Context := { c with phase := .finalized }

/-- Run a body on context `S[ctx]` and the working registers, which then lose their contents; no response value. -/
def onContext (ctx : Nat) (body : ShaEngine → ShaEngine) (s : State) : State × List Byte :=
  let e := body { regs := s.sha, ctx := ctxAt s ctx }
  (retireSha { setCtx s ctx e.ctx with sha := e.regs }, [])

/-- Checks and effect of `SHA512_UPDATE_MULTI` (R171, R173). -/
def updateMulti (ctx inAddr n : Nat) (s : State) : Host.Outcome State Fault Refusal :=
  command
    [(ctxOk s ctx, .illegalCommand), (absorbsIn (ctxAt s ctx).phase, .orderViolation),
      (footprintFits s inAddr (128 * n), .bufferViolation)]
    (onContext ctx (updateMultiBody s.mem inAddr n)) s

/-- `SHA512_INIT`: legal in every phase (R170). -/
def execSha512Init (ctx : Nat) (s : State) : Host.Outcome State Fault Refusal :=
  command [(ctxOk s ctx, .illegalCommand)] (fun s => (setCtx s ctx initBody, [])) s

/-- `SHA512_UPDATE`: exactly `SHA512_UPDATE_MULTI` with `n = 1` (R174). -/
def execSha512Update (ctx inAddr : Nat) (s : State) : Host.Outcome State Fault Refusal :=
  updateMulti ctx inAddr 1 s

/-- `SHA512_UPDATE_MULTI` (R173). -/
def execSha512UpdateMulti (ctx inAddr n : Nat) (s : State) : Host.Outcome State Fault Refusal :=
  updateMulti ctx inAddr n s

/-- `SHA512_UPDATE_LAST` (R177): context, size, order, fit. -/
def execSha512UpdateLast (ctx inAddr length : Nat) (s : State) : Host.Outcome State Fault Refusal :=
  command
    [(ctxOk s ctx, .illegalCommand), (tailSizeOk length, .sizeMismatch),
      (absorbsIn (ctxAt s ctx).phase, .orderViolation), (footprintFits s inAddr length, .bufferViolation)]
    (onContext ctx (updateLastBody s.mem inAddr length)) s

/-- `SHA512_FINISH`: the digest; only `PHASE` changes (R181). -/
def execSha512Finish (ctx : Nat) (s : State) : Host.Outcome State Fault Refusal :=
  command [(ctxOk s ctx, .illegalCommand), (finishesIn (ctxAt s ctx).phase, .orderViolation)]
    (fun s => (setCtx s ctx (finishBody (ctxAt s ctx)), digest (ctxAt s ctx).h)) s

/-- The run of `SHA512_HASH` on a private context `P`: `INIT`, `UPDATE_MULTI` over the full blocks, `UPDATE_LAST`
over the rest (R182). -/
def hashEngine (m : Memory) (inAddr length : Nat) (regs : ShaRegs) : ShaEngine :=
  let nf := length / 128
  updateLastBody m (inAddr + 128 * nf) (length - 128 * nf)
    (updateMultiBody m inAddr nf { regs := regs, ctx := initBody })

/-- `SHA512_HASH`: no `S[s]` is read or written (R182). -/
def execSha512Hash (inAddr length : Nat) (s : State) : Host.Outcome State Fault Refusal :=
  command [(footprintFits s inAddr length, .bufferViolation)]
    (fun s =>
      let e := hashEngine s.mem inAddr length s.sha
      (retireSha { s with sha := e.regs }, digest e.ctx.h)) s

end Sys2Proof.Machine
end

