-- ==== Sys2Proof/Machine/Dispatch.lean ====
section
/-! DEFINITION. The dispatch: one direct call of a meaning per command. -/

namespace Sys2Proof.Machine

def exec (i : Instr) (s : State) : Host.Outcome State Fault Refusal :=
  match i with
  | .salsa20Keystream nonce counter key => Sys2Proof.Machine.execSalsa20Keystream nonce counter key s
  | .salsa20Stream outAddr length nonce key => Sys2Proof.Machine.execSalsa20Stream outAddr length nonce key s
  | .salsa20Xor outAddr inAddr length nonce key => Sys2Proof.Machine.execSalsa20Xor outAddr inAddr length nonce key s
  | .salsa20XorIc outAddr inAddr length nonce counter key => Sys2Proof.Machine.execSalsa20XorIc outAddr inAddr length nonce counter key s
  | .sha512Init ctx => Sys2Proof.Machine.execSha512Init ctx s
  | .sha512Update ctx inAddr => Sys2Proof.Machine.execSha512Update ctx inAddr s
  | .sha512UpdateMulti ctx inAddr n => Sys2Proof.Machine.execSha512UpdateMulti ctx inAddr n s
  | .sha512UpdateLast ctx inAddr length => Sys2Proof.Machine.execSha512UpdateLast ctx inAddr length s
  | .sha512Finish ctx => Sys2Proof.Machine.execSha512Finish ctx s
  | .sha512Hash inAddr length => Sys2Proof.Machine.execSha512Hash inAddr length s

end Sys2Proof.Machine
end

