-- ==== Sys2Proof/Machine/Step.lean ====
section
/-! DEFINITION. One step of the machine: the block takes the host's oldest command and runs it whole
(10_state R25, 20_memory R64, R65). -/

namespace Sys2Proof.Machine

/-- With no command pending the block is idle and nothing changes (70_reset_and_hazards R231). Otherwise it takes
the oldest command; a reserved opcode raises `IllegalCommand` (30_encoding R86, 60_exceptions R202). -/
def step (s : State) : Host.Outcome State Fault Refusal :=
  match s.cmdQueue with
  | [] => .next (idle s)
  | r :: rest =>
    match decode r with
    | .ok i => exec i (takeCommand rest s)
    | .error _ => .next (reservedOpcode (takeCommand rest s))

/-- `s` with the command of the table's word `w` issued before the host's other commands, so that the very next
step runs exactly it (notes/assumptions/3.md). -/
def State.withFetchWord (s : State) (_nbits w : Nat) : State := issueFirst (tableRecord w) s

end Sys2Proof.Machine
end

