-- ==== Sys2Proof/Machine/Values.lean ====
section
/-! DEFINITION. The value-level functions of the spec: what a command computes between what it reads and what it
writes, as a function of byte strings alone (40_salsa20_core R110, 41_salsa20_stream R124, 42_sha512_compress R155,
43_sha512_stream R183). No command calls them; claims compare the commands with them. -/

namespace Sys2Proof.Machine

/-- `SALSA20_BLOCK(key, nonce, ctr)` as 64 bytes, computed from cleared registers (R110). -/
def salsa20BlockV (key nonce : List Byte) (ctr : Word64) : List Byte :=
  (salsa20Block key nonce ctr SalsaRegs.reset).ks.toList

/-- `salsa20_xor_ic_v(P, nonce, c0, key)`: byte `64*i + j` is exclusive-or'ed with byte `j` of the block of counter
`c0 + i` (R124). -/
def xorIcV (p nonce : List Byte) (c0 : Word64) (key : List Byte) : List Byte :=
  p.mapIdx fun q v => xor8 v (byteAt (salsa20BlockV key nonce (blockCounter c0 (q / 64))) (q % 64))

/-- `compress_v(H, M)`, computed from cleared registers (R155). -/
def compressV (hash : Vector Word64 8) (block : List Byte) : Vector Word64 8 :=
  addBack (compressRegs block hash ShaRegs.reset) hash

/-- `compress_v` folded over the first `n` blocks of a byte string (R183). -/
def absorbV (hash : Vector Word64 8) (b : List Byte) (n : Nat) : Vector Word64 8 :=
  Nat.fold n (fun j _ hash => compressV hash (blockAt b (128 * j))) hash

/-- `sha512_v(m)` (R183). -/
def sha512V (m : List Byte) : List Byte :=
  let nf := m.length / 128
  let p := pad (m.drop (128 * nf)) (BitVec.ofNat 128 (1024 * nf))
  digest (absorbV (absorbV iv m nf) p (p.length / 128))

end Sys2Proof.Machine
end

