-- ==== Sys2Proof/Safety.lean ====
section
/-! DEFINITION. The terms in which claims speak of the machine: faultless and final runs (60_exceptions R212),
footprints (20_memory R58, R59), agreement but for transient registers (70_reset_and_hazards R230), and what a sound
state is. -/

namespace Sys2Proof.Machine

/-- No fault has been recorded (R212). -/
abbrev Faultless (s : State) : Prop := s.faults = []

/-- A final state of a run: every command done, no fault recorded (R212, 93_implementation_defined section 1). -/
abbrev Final (s : State) : Prop := s.cmdQueue = [] ∧ Faultless s

/-- The context a command names, if it names one (R82). -/
def ctxOperand : Instr → Option Nat
  | .salsa20Keystream .. => none
  | .salsa20Stream .. => none
  | .salsa20Xor .. => none
  | .salsa20XorIc .. => none
  | .sha512Init ctx => some ctx
  | .sha512Update ctx _ => some ctx
  | .sha512UpdateMulti ctx _ _ => some ctx
  | .sha512UpdateLast ctx _ _ => some ctx
  | .sha512Finish ctx => some ctx
  | .sha512Hash .. => none

/-- Does the command belong to the Salsa20 engine (R81)? -/
def isSalsa : Instr → Bool
  | .salsa20Keystream .. => true
  | .salsa20Stream .. => true
  | .salsa20Xor .. => true
  | .salsa20XorIc .. => true
  | .sha512Init .. => false
  | .sha512Update .. => false
  | .sha512UpdateMulti .. => false
  | .sha512UpdateLast .. => false
  | .sha512Finish .. => false
  | .sha512Hash .. => false

/-- The write footprint of R59: address and number of bytes. -/
def writeFootprint : Instr → Nat × Nat
  | .salsa20Keystream .. => (0, 0)
  | .salsa20Stream outAddr length _ _ => (outAddr, length)
  | .salsa20Xor outAddr _ length _ _ => (outAddr, length)
  | .salsa20XorIc outAddr _ length _ _ _ => (outAddr, length)
  | .sha512Init _ => (0, 0)
  | .sha512Update .. => (0, 0)
  | .sha512UpdateMulti .. => (0, 0)
  | .sha512UpdateLast .. => (0, 0)
  | .sha512Finish _ => (0, 0)
  | .sha512Hash .. => (0, 0)

/-- The read footprint of R58: address and number of bytes. -/
def readFootprint : Instr → Nat × Nat
  | .salsa20Keystream .. => (0, 0)
  | .salsa20Stream .. => (0, 0)
  | .salsa20Xor _ inAddr length _ _ => (inAddr, length)
  | .salsa20XorIc _ inAddr length _ _ _ => (inAddr, length)
  | .sha512Init _ => (0, 0)
  | .sha512Update _ inAddr => (inAddr, 128)
  | .sha512UpdateMulti _ inAddr n => (inAddr, 128 * n)
  | .sha512UpdateLast _ inAddr length => (inAddr, length)
  | .sha512Finish _ => (0, 0)
  | .sha512Hash inAddr length => (inAddr, length)

/-- The 246 reserved opcodes: 0x00 to 0x0F, 0x14 to 0x1F, 0x26 to 0xFF (R86). -/
def reservedOp (op : Byte) : Bool :=
  decide (op ≤ 0x0F) || (decide (0x14 ≤ op) && decide (op ≤ 0x1F)) || decide (0x26 ≤ op)

/-- `n` bytes at `a` lie below `2^AW` (R62). -/
abbrev FitsBelow (s : State) (a n : Nat) : Prop :=
  match s.aw with
  | none => True
  | some w => a + n ≤ 2 ^ w

/-- The command names a context that does not exist (R202). -/
abbrev NamesNoContext (s : State) (i : Instr) : Prop :=
  match ctxOperand i with
  | none => False
  | some k => nctx s ≤ k

/-- The command breaks a size contract (R203). -/
abbrev WrongSize : Instr → Prop
  | .salsa20Keystream nonce _ key => ¬(key.length = 32 ∧ nonce.length = 8)
  | .salsa20Stream _ _ nonce key => ¬(key.length = 32 ∧ nonce.length = 8)
  | .salsa20Xor _ _ _ nonce key => ¬(key.length = 32 ∧ nonce.length = 8)
  | .salsa20XorIc _ _ _ nonce _ key => ¬(key.length = 32 ∧ nonce.length = 8)
  | .sha512Init _ => False
  | .sha512Update .. => False
  | .sha512UpdateMulti .. => False
  | .sha512UpdateLast _ _ length => 127 < length
  | .sha512Finish _ => False
  | .sha512Hash .. => False

/-- The command is not legal in its context's phase (R204). -/
abbrev OutOfOrder (s : State) : Instr → Prop
  | .salsa20Keystream .. => False
  | .salsa20Stream .. => False
  | .salsa20Xor .. => False
  | .salsa20XorIc .. => False
  | .sha512Init _ => False
  | .sha512Update k _ => (ctxAt s k).phase ≠ .fresh ∧ (ctxAt s k).phase ≠ .absorbing
  | .sha512UpdateMulti k _ _ => (ctxAt s k).phase ≠ .fresh ∧ (ctxAt s k).phase ≠ .absorbing
  | .sha512UpdateLast k _ _ => (ctxAt s k).phase ≠ .fresh ∧ (ctxAt s k).phase ≠ .absorbing
  | .sha512Finish k => (ctxAt s k).phase ≠ .padded
  | .sha512Hash .. => False

/-- A non-empty footprint does not fit, or input and output share a byte without being identical (R205). -/
abbrev BadBuffer (s : State) (i : Instr) : Prop :=
  (0 < (readFootprint i).2 ∧ ¬FitsBelow s (readFootprint i).1 (readFootprint i).2) ∨
    (0 < (writeFootprint i).2 ∧ ¬FitsBelow s (writeFootprint i).1 (writeFootprint i).2) ∨
    (0 < (readFootprint i).2 ∧ 0 < (writeFootprint i).2 ∧ readFootprint i ≠ writeFootprint i ∧
      (readFootprint i).1 < (writeFootprint i).1 + (writeFootprint i).2 ∧
      (writeFootprint i).1 < (readFootprint i).1 + (readFootprint i).2)

/-- The length of `RSP.value` of a command that ends with `OK` (R29, R82). -/
def valueLength : Instr → Nat
  | .salsa20Keystream .. => 64
  | .salsa20Stream .. => 0
  | .salsa20Xor .. => 0
  | .salsa20XorIc .. => 0
  | .sha512Init _ => 0
  | .sha512Update .. => 0
  | .sha512UpdateMulti .. => 0
  | .sha512UpdateLast .. => 0
  | .sha512Finish _ => 64
  | .sha512Hash .. => 64

/-- The states agree on everything but the transient registers (R20 b), whose residues are free values. -/
abbrev AgreeButTransient (s t : State) : Prop :=
  s.ctxs = t.ctxs ∧ s.cmdQueue = t.cmdQueue ∧ s.rspLog = t.rspLog ∧ s.faults = t.faults ∧ s.mem = t.mem ∧
    s.aw = t.aw ∧ s.lenw = t.lenw

/-- Memory has its canonical form and lists only addresses of the address space (R41). -/
abbrev MemorySound (s : State) : Prop :=
  memoryWf s.mem = true ∧
    match s.aw with
    | none => True
    | some w => ∀ c ∈ s.mem, c.1 < 2 ^ w

/-- What a context holds in each phase: `BUF` is empty (R38); a fresh context has `H = IV` and `LEN = 0` (R170); an
absorbing one has absorbed whole blocks of 1024 bits (R172); a padded or finalized one whole bytes (R177). -/
abbrev ContextSound (c : Context) : Prop :=
  c.buf = [] ∧
    match c.phase with
    | .uninit => True
    | .fresh => c.h = iv ∧ c.len = 0
    | .absorbing => c.len.toNat % 1024 = 0
    | .padded => c.len.toNat % 8 = 0
    | .finalized => c.len.toNat % 8 = 0

/-- What a response may be (R29, R90). -/
abbrev ResponseSound (r : Response) : Prop :=
  (r.status = okCode ∧ (r.value.length = 0 ∨ r.value.length = 64)) ∨
    ((r.status = causeCode .illegalCommand ∨ r.status = causeCode .sizeMismatch ∨
        r.status = causeCode .orderViolation ∨ r.status = causeCode .bufferViolation) ∧ r.value = [])

/-- The faults recorded are exactly the statuses other than `OK`, in order (R18, R212). -/
abbrev FaultsSound (s : State) : Prop :=
  s.faults.map causeCode = (s.rspLog.map (·.status)).filter (· != okCode)

/-- The invariant of the machine. -/
structure Sound (s : State) : Prop where
  nctx_pos : 1 ≤ nctx s
  memory : MemorySound s
  contexts : ∀ c ∈ s.ctxs, ContextSound c
  responses : ∀ r ∈ s.rspLog, ResponseSound r
  faults : FaultsSound s

end Sys2Proof.Machine
end

