-- ==== Sys2Proof/WellFormed.lean ====
section
/-! DEFINITION. When a command keeps the operand contracts of 30_encoding R82 and R85: sizes of key, nonce and
tail, context index below `NCTX`, addresses of `AW` bits, counts of `LENW` bits. -/

namespace Sys2Proof

/-- A natural fits a field of that width; an unbounded width takes every natural (R7, D11). -/
def fieldFits (width : Option Nat) (v : Nat) : Bool :=
  match width with
  | none => true
  | some w => decide (v < 2 ^ w)

/-- The operand contracts of R82 and R85 for one command, under the parameters `p`. -/
def Instr.wellFormed (p : Params) : Instr → Bool
  | .salsa20Keystream nonce _ key => decide (nonce.length = 8) && decide (key.length = 32)
  | .salsa20Stream outAddr length nonce key =>
    fieldFits p.aw outAddr && fieldFits p.lenw length && decide (nonce.length = 8) && decide (key.length = 32)
  | .salsa20Xor outAddr inAddr length nonce key =>
    fieldFits p.aw outAddr && fieldFits p.aw inAddr && fieldFits p.lenw length && decide (nonce.length = 8) &&
      decide (key.length = 32)
  | .salsa20XorIc outAddr inAddr length nonce _ key =>
    fieldFits p.aw outAddr && fieldFits p.aw inAddr && fieldFits p.lenw length && decide (nonce.length = 8) &&
      decide (key.length = 32)
  | .sha512Init ctx => decide (ctx < p.nctx)
  | .sha512Update ctx inAddr => decide (ctx < p.nctx) && fieldFits p.aw inAddr
  | .sha512UpdateMulti ctx inAddr n => decide (ctx < p.nctx) && fieldFits p.aw inAddr && fieldFits p.lenw n
  | .sha512UpdateLast ctx inAddr length =>
    decide (ctx < p.nctx) && fieldFits p.aw inAddr && fieldFits p.lenw length && decide (length ≤ 127)
  | .sha512Finish ctx => decide (ctx < p.nctx)
  | .sha512Hash inAddr length => fieldFits p.aw inAddr && fieldFits p.lenw length

end Sys2Proof
end

