-- ==== Sys2Proof/Certificates/Slice0/Obligations.lean ====
section
/-! DEFINITION. The statements for the provers. Each docstring names the rules of spec/ it formalises, or the
sections it rests on. In the statements about commands, `takeException c s` is `s` with one response (the code of
`c`, empty value) and one recorded fault more, `respond v s` is `s` with one response (`OK`, `v`) more, and
`retireSalsa` / `retireSha` replace an engine's transient registers by a residue that is a free value
(notes/assumptions/8.md): the statements hold whatever it is. A command leaves the other engine's registers alone, the
engines being independent (00_scope R1). -/

open Sys2Proof Sys2Proof.Machine

/-! ### Encoding and step -/

/-- One step takes the host's oldest command: a record that decodes runs as its command, a record that does not
raises `IllegalCommand`, and with no record the block is idle (10_state section 3, 70_reset_and_hazards section 1).
That the host's commands stand in a queue of the state is the model's choice (notes/assumptions/2.md). -/
def Obligations.StepRunsTheDecodedCommand : Prop :=
  ∀ s : State,
    (s.cmdQueue = [] → step s = .next s) ∧
    ∀ (r : Record) (rest : List Record), s.cmdQueue = r :: rest →
      (∀ i, decode r = .ok i → step s = exec i { s with cmdQueue := rest }) ∧
      (∀ e, decode r = .error e → step s = .next (takeException .illegalCommand { s with cmdQueue := rest }))

/-- R86: the 246 reserved opcodes, and what a command with one does. -/
def Obligations.ReservedOpcodesRaiseIllegalCommand : Prop :=
  ((List.range 256).filter fun b => reservedOp (BitVec.ofNat 8 b)).length = 246 ∧
  (∀ r : Record, (∃ e, decode r = .error e) ↔ reservedOp r.op = true) ∧
  ∀ (s : State) (r : Record) (rest : List Record), s.cmdQueue = r :: rest → reservedOp r.op = true →
    step s = .next { s with
      cmdQueue := rest,
      rspLog := s.rspLog ++ [{ status := 0x01, value := [] }],
      faults := s.faults ++ [.illegalCommand] }

/-- Decoding reads the opcode and then the fields of the command's record, whatever the other fields hold
(30_encoding section 1). -/
def Obligations.DecodeReadsTheRecord : Prop :=
  ∀ r : Record,
    (r.op = 0x10 → decode r = .ok (.salsa20Keystream r.nonce r.counter r.key)) ∧
    (r.op = 0x11 → decode r = .ok (.salsa20Stream r.outAddr r.length r.nonce r.key)) ∧
    (r.op = 0x12 → decode r = .ok (.salsa20Xor r.outAddr r.inAddr r.length r.nonce r.key)) ∧
    (r.op = 0x13 → decode r = .ok (.salsa20XorIc r.outAddr r.inAddr r.length r.nonce r.counter r.key)) ∧
    (r.op = 0x20 → decode r = .ok (.sha512Init r.ctx)) ∧
    (r.op = 0x21 → decode r = .ok (.sha512Update r.ctx r.inAddr)) ∧
    (r.op = 0x22 → decode r = .ok (.sha512UpdateMulti r.ctx r.inAddr r.n)) ∧
    (r.op = 0x23 → decode r = .ok (.sha512UpdateLast r.ctx r.inAddr r.length)) ∧
    (r.op = 0x24 → decode r = .ok (.sha512Finish r.ctx)) ∧
    (r.op = 0x25 → decode r = .ok (.sha512Hash r.inAddr r.length))

/-- Decode and encode agree, for every command and every value of every operand; a record that decodes carries the
opcode of its command (30_encoding section 1; the record is the model's own form of `CMD`, notes/assumptions/4.md). -/
def Obligations.DecodeEncodeAgree : Prop :=
  (∀ i : Instr, decode (encode i) = .ok i) ∧
  ∀ (r : Record) (i : Instr), decode r = .ok i → r.op = opcode i

/-- Opcode words of 30_encoding R81 written out bit by bit decode to the commands they stand for (sanity). -/
def Obligations.OpcodeWordsDecode : Prop :=
  decodeTableWord 8 0b00010000 = some (.salsa20Keystream (List.replicate 8 0) 0 (List.replicate 32 0)) ∧
  decodeTableWord 8 0b00010010 = some (.salsa20Xor 0 0 0 (List.replicate 8 0) (List.replicate 32 0)) ∧
  decodeTableWord 8 0b00100000 = some (.sha512Init 0) ∧
  decodeTableWord 8 0b00100101 = some (.sha512Hash 0 0) ∧
  decodeTableWord 8 0b00000000 = none

/-! ### Primitives -/

/-- R12, R13, R14: the arithmetic and bitwise primitives. -/
def Obligations.WordPrimitivesAreModular : Prop :=
  (∀ a b : Word32, (add32 a b).toNat = (a.toNat + b.toNat) % 2 ^ 32) ∧
  (∀ (a b : Word32) (i : Nat), (xor32 a b).getLsbD i = (a.getLsbD i ^^ b.getLsbD i)) ∧
  (∀ (a : Word32) (n : Nat), 0 < n → n < 32 →
    (rotl32 a n).toNat = (a.toNat * 2 ^ n) % 2 ^ 32 + a.toNat / 2 ^ (32 - n)) ∧
  (∀ (a : Word32) (n i : Nat), 0 < n → n < 32 → i < 32 → (rotl32 a n).getLsbD ((i + n) % 32) = a.getLsbD i) ∧
  (∀ a b : Word64, (add64 a b).toNat = (a.toNat + b.toNat) % 2 ^ 64) ∧
  (∀ (a b : Word64) (i : Nat), (xor64 a b).getLsbD i = (a.getLsbD i ^^ b.getLsbD i)) ∧
  (∀ (a b : Word64) (i : Nat), (and64 a b).getLsbD i = (a.getLsbD i && b.getLsbD i)) ∧
  (∀ a : Word64, (not64 a).toNat = (2 ^ 64 - 1) - a.toNat) ∧
  (∀ (a : Word64) (n : Nat), 0 < n → n < 64 →
    (rotr64 a n).toNat = a.toNat / 2 ^ n + (a.toNat % 2 ^ n) * 2 ^ (64 - n)) ∧
  (∀ (a : Word64) (n i : Nat), 0 < n → n < 64 → i < 64 → (rotr64 a n).getLsbD ((i + 64 - n) % 64) = a.getLsbD i) ∧
  (∀ (a : Word64) (n : Nat), 0 < n → n < 64 → (shr64 a n).toNat = a.toNat / 2 ^ n) ∧
  (∀ a b : Word128, (add128 a b).toNat = (a.toNat + b.toNat) % 2 ^ 128)

/-- R16: words to bytes and bytes to words, little-endian for 32 bits, big-endian for 64 and 128. The last two clauses
are the sentence R16 itself marks as derived from the definitions. -/
def Obligations.ByteOrderConversions : Prop :=
  (∀ (b : List Byte) (o : Nat) (h : o + 3 < b.length),
    (le32Load b o).toNat =
      b[o].toNat + 2 ^ 8 * b[o + 1].toNat + 2 ^ 16 * b[o + 2].toNat + 2 ^ 24 * b[o + 3].toNat) ∧
  (∀ (b : List Byte) (o : Nat) (h : o + 7 < b.length),
    (be64Load b o).toNat =
      b[o].toNat * 2 ^ 56 + b[o + 1].toNat * 2 ^ 48 + b[o + 2].toNat * 2 ^ 40 + b[o + 3].toNat * 2 ^ 32 +
        b[o + 4].toNat * 2 ^ 24 + b[o + 5].toNat * 2 ^ 16 + b[o + 6].toNat * 2 ^ 8 + b[o + 7].toNat) ∧
  (∀ v : Word32, le32Store v =
    [v.extractLsb' 0 8, v.extractLsb' 8 8, v.extractLsb' 16 8, v.extractLsb' 24 8]) ∧
  (∀ v : Word64, be64Store v =
    [v.extractLsb' 56 8, v.extractLsb' 48 8, v.extractLsb' 40 8, v.extractLsb' 32 8,
      v.extractLsb' 24 8, v.extractLsb' 16 8, v.extractLsb' 8 8, v.extractLsb' 0 8]) ∧
  (∀ v : Word128, be128Store v = be64Store (v.extractLsb' 64 64) ++ be64Store (v.extractLsb' 0 64)) ∧
  (∀ v : Word32, le32Load (le32Store v) 0 = v) ∧
  (∀ v : Word64, be64Load (be64Store v) 0 = v)

/-! ### Salsa20 datapath -/

/-- R101: the quarter-round's four updates, in order, each using the words already updated (sanity). -/
def Obligations.QuarterRoundFormula : Prop :=
  ∀ a b c d : Word32,
    let b' := xor32 b (rotl32 (add32 a d) 7)
    let c' := xor32 c (rotl32 (add32 b' a) 9)
    let d' := xor32 d (rotl32 (add32 c' b') 13)
    let a' := xor32 a (rotl32 (add32 d' c') 18)
    quarterRound a b c d = (a', b', c', d')

/-- The quarter-round is a bijection of `(u32)^4` with zero as a fixed point (40_salsa20_core section 1). -/
def Obligations.QuarterRoundIsBijective : Prop :=
  Function.Bijective (fun v : Word32 × Word32 × Word32 × Word32 => quarterRound v.1 v.2.1 v.2.2.1 v.2.2.2) ∧
  quarterRound 0 0 0 0 = (0, 0, 0, 0)

/-- R103, R104, R106: a column round and a row round apply `QR` to the words of their four groups as they were before
the round, so the order of the groups does not matter; a double-round is the columns, then the rows, and the two do
not commute. No other register of the block is written but the counter `QI`. -/
def Obligations.RoundsActOnDisjointGroups : Prop :=
  (∀ (r : SalsaRegs) (g : Fin 16 × Fin 16 × Fin 16 × Fin 16),
    g ∈ [(0, 4, 8, 12), (5, 9, 13, 1), (10, 14, 2, 6), (15, 3, 7, 11)] →
    ((columnRound r).x[g.1], (columnRound r).x[g.2.1], (columnRound r).x[g.2.2.1], (columnRound r).x[g.2.2.2]) =
      quarterRound r.x[g.1] r.x[g.2.1] r.x[g.2.2.1] r.x[g.2.2.2]) ∧
  (∀ (r : SalsaRegs) (g : Fin 16 × Fin 16 × Fin 16 × Fin 16),
    g ∈ [(0, 1, 2, 3), (5, 6, 7, 4), (10, 11, 8, 9), (15, 12, 13, 14)] →
    ((rowRound r).x[g.1], (rowRound r).x[g.2.1], (rowRound r).x[g.2.2.1], (rowRound r).x[g.2.2.2]) =
      quarterRound r.x[g.1] r.x[g.2.1] r.x[g.2.2.1] r.x[g.2.2.2]) ∧
  (∀ r : SalsaRegs, doubleRound r = rowRound (columnRound r) ∧
    (doubleRound r).inp = r.inp ∧ (doubleRound r).ks = r.ks ∧ (doubleRound r).dr = r.dr ∧ (doubleRound r).bi = r.bi) ∧
  ∃ r : SalsaRegs, (rowRound (columnRound r)).x ≠ (columnRound (rowRound r)).x

/-- R107: ten double-rounds, whatever the operands, and `IN` untouched; `DR` then counts ten. -/
def Obligations.RoundsAreTenDoubleRounds : Prop :=
  ∀ r : SalsaRegs,
    (rounds r).x = ((doubleRound)^[10] r).x ∧ (rounds r).inp = r.inp ∧ (rounds r).ks = r.ks ∧ (rounds r).dr = 10

/-- R105 and the constants of R22: the positions of constants, key, nonce and counter words in `IN` and `X`. -/
def Obligations.InputMatrixLayout : Prop :=
  ∀ (key nonce : List Byte) (ctr : Word64) (r : SalsaRegs),
    (loadMatrix key nonce ctr r).inp =
      #v[0x61707865, le32Load key 0, le32Load key 4, le32Load key 8,
        le32Load key 12, 0x3320646e, le32Load nonce 0, le32Load nonce 4,
        ctr.extractLsb' 0 32, ctr.extractLsb' 32 32, 0x79622d32, le32Load key 16,
        le32Load key 20, le32Load key 24, le32Load key 28, 0x6b206574] ∧
    (loadMatrix key nonce ctr r).x = (loadMatrix key nonce ctr r).inp ∧ (loadMatrix key nonce ctr r).ks = r.ks

/-- The feed-forward adds to each output word its input word, once, and writes `X` alone (40_salsa20_core section 3). -/
def Obligations.FeedForwardAddsTheInputMatrix : Prop :=
  ∀ r : SalsaRegs,
    (∀ i : Fin 16, (feedForward r).x[i] = add32 r.x[i] r.inp[i]) ∧
    (feedForward r).inp = r.inp ∧ (feedForward r).ks = r.ks

/-- R53: the sixteen words, row-major, each least significant byte first. -/
def Obligations.SerialisationIsLittleEndian : Prop :=
  ∀ r : SalsaRegs,
    (serialize r).ks.toList = r.x.toList.flatMap le32Store ∧
    ∀ (j : Fin 16) (m : Fin 4),
      (serialize r).ks[4 * j.val + m.val]? = some (r.x[j].extractLsb' (8 * m.val) 8)

/-- R110: a keystream block is load, rounds, feed-forward, serialisation, and a pure function of key, nonce and
counter: whatever the registers held before, the 64 bytes are the same. -/
def Obligations.KeystreamBlockIsPure : Prop :=
  ∀ (key nonce : List Byte) (ctr : Word64) (r r' : SalsaRegs),
    salsa20Block key nonce ctr r = serialize (feedForward (rounds (loadMatrix key nonce ctr r))) ∧
    (salsa20Block key nonce ctr r).ks = (salsa20Block key nonce ctr r').ks

/-- Block `i` of a command uses counter `(c0 + i) mod 2^64`, and there are exactly `ceil(length / 64)` blocks, the
last of which uses only the bytes that are left (41_salsa20_stream section 1). -/
def Obligations.CounterSequenceWraps : Prop :=
  (∀ (c0 : Word64) (i : Nat), (blockCounter c0 i).toNat = (c0.toNat + i) % 2 ^ 64) ∧
  (∀ length : Nat, length ≤ 64 * salsaBlocks length ∧ 64 * salsaBlocks length < length + 64) ∧
  (∀ length i : Nat, i < salsaBlocks length → 0 < usedBytes length i ∧ usedBytes length i ≤ 64) ∧
  (∀ length i : Nat, i + 1 < salsaBlocks length → usedBytes length i = 64) ∧
  (∀ length i : Nat, i + 1 = salsaBlocks length → 64 * i + usedBytes length i = length)

/-! ### Salsa20 commands -/

/-- R120: `SALSA20_KEYSTREAM` responds the block and keeps everything else, or raises `SizeMismatch`. -/
def Obligations.Salsa20KeystreamMeaning : Prop :=
  ∀ (s : State) (nonce : List Byte) (counter : Word64) (key : List Byte),
    (key.length = 32 ∧ nonce.length = 8 →
      exec (.salsa20Keystream nonce counter key) s =
        .next (respond (salsa20BlockV key nonce counter) (retireSalsa s))) ∧
    (¬(key.length = 32 ∧ nonce.length = 8) →
      exec (.salsa20Keystream nonce counter key) s = .next (takeException .sizeMismatch s))

/-- R125: `SALSA20_XOR_IC` checks sizes, fit and aliasing in that order; when they hold, in place or not, its byte
loop is one `MemWrite` of the value-level function of what `MemRead` gives, and nothing else changes. -/
def Obligations.Salsa20XorIcMeaning : Prop :=
  ∀ (s : State) (outAddr inAddr length : Nat) (nonce : List Byte) (counter : Word64) (key : List Byte),
    (¬(key.length = 32 ∧ nonce.length = 8) →
      exec (.salsa20XorIc outAddr inAddr length nonce counter key) s = .next (takeException .sizeMismatch s)) ∧
    (key.length = 32 ∧ nonce.length = 8 → 0 < length →
      ¬(FitsBelow s inAddr length ∧ FitsBelow s outAddr length) →
      exec (.salsa20XorIc outAddr inAddr length nonce counter key) s = .next (takeException .bufferViolation s)) ∧
    (key.length = 32 ∧ nonce.length = 8 → 0 < length → FitsBelow s inAddr length ∧ FitsBelow s outAddr length →
      ¬(inAddr = outAddr ∨ inAddr + length ≤ outAddr ∨ outAddr + length ≤ inAddr) →
      exec (.salsa20XorIc outAddr inAddr length nonce counter key) s = .next (takeException .bufferViolation s)) ∧
    (key.length = 32 ∧ nonce.length = 8 →
      length = 0 ∨ (FitsBelow s inAddr length ∧ FitsBelow s outAddr length ∧
        (inAddr = outAddr ∨ inAddr + length ≤ outAddr ∨ outAddr + length ≤ inAddr)) →
      exec (.salsa20XorIc outAddr inAddr length nonce counter key) s =
        .next (respond [] (retireSalsa { s with
          mem := memWrite s.mem outAddr (xorIcV (memRead s.mem inAddr length) nonce counter key) })))

/-- R126: `SALSA20_XOR` is `SALSA20_XOR_IC` with counter 0 in every state, its exceptions included; when the checks
of R125 hold it answers the state below. -/
def Obligations.Salsa20XorMeaning : Prop :=
  ∀ (s : State) (outAddr inAddr length : Nat) (nonce key : List Byte),
    exec (.salsa20Xor outAddr inAddr length nonce key) s =
      exec (.salsa20XorIc outAddr inAddr length nonce 0 key) s ∧
    (key.length = 32 ∧ nonce.length = 8 →
      length = 0 ∨ (FitsBelow s inAddr length ∧ FitsBelow s outAddr length ∧
        (inAddr = outAddr ∨ inAddr + length ≤ outAddr ∨ outAddr + length ≤ inAddr)) →
      exec (.salsa20Xor outAddr inAddr length nonce key) s =
        .next (respond [] (retireSalsa { s with
          mem := memWrite s.mem outAddr (xorIcV (memRead s.mem inAddr length) nonce 0 key) })))

/-- R127: `SALSA20_STREAM` checks sizes, then fit, and writes the keystream of counters 0, 1, .. as the exclusive-or
of an all-zero input that is read from nowhere. -/
def Obligations.Salsa20StreamMeaning : Prop :=
  ∀ (s : State) (outAddr length : Nat) (nonce key : List Byte),
    (¬(key.length = 32 ∧ nonce.length = 8) →
      exec (.salsa20Stream outAddr length nonce key) s = .next (takeException .sizeMismatch s)) ∧
    (key.length = 32 ∧ nonce.length = 8 → 0 < length → ¬FitsBelow s outAddr length →
      exec (.salsa20Stream outAddr length nonce key) s = .next (takeException .bufferViolation s)) ∧
    (key.length = 32 ∧ nonce.length = 8 → length = 0 ∨ FitsBelow s outAddr length →
      exec (.salsa20Stream outAddr length nonce key) s =
        .next (respond [] (retireSalsa { s with
          mem := memWrite s.mem outAddr (xorIcV (zeros length) nonce 0 key) })))

/-- The value-level function gives each byte exclusive-or'ed with its keystream byte, is an involution, and composes
at every multiple of 64 bytes with the counter advanced, modulo 2^64 (41_salsa20_stream sections 1 and 3). -/
def Obligations.XorStreamIsInvolutiveAndComposes : Prop :=
  (∀ (p nonce : List Byte) (c : Word64) (key : List Byte) (i j : Nat) (h : 64 * i + j < p.length), j < 64 →
    (xorIcV p nonce c key)[64 * i + j]? =
      some (xor8 p[64 * i + j] (byteAt (salsa20BlockV key nonce (add64 c (BitVec.ofNat 64 i))) j))) ∧
  (∀ (p nonce : List Byte) (c : Word64) (key : List Byte),
    xorIcV (xorIcV p nonce c key) nonce c key = p) ∧
  (∀ (p nonce : List Byte) (c : Word64) (key : List Byte) (q : Nat), 64 * q ≤ p.length →
    xorIcV p nonce c key =
      xorIcV (p.take (64 * q)) nonce c key ++
        xorIcV (p.drop (64 * q)) nonce (add64 c (BitVec.ofNat 64 q)) key)

/-- Encrypting in place twice with the same key, nonce and counter ends with `OK` twice and gives back the memory, as data
(41_salsa20_stream section 3; program P2 of 95_test_vectors for every text). -/
def Obligations.InPlaceXorTwiceRestoresMemory : Prop :=
  ∀ (s : State) (addr length : Nat) (nonce : List Byte) (counter : Word64) (key : List Byte),
    memoryWf s.mem = true → key.length = 32 ∧ nonce.length = 8 → length = 0 ∨ FitsBelow s addr length →
    ∃ t u : State,
      exec (.salsa20XorIc addr addr length nonce counter key) s = .next t ∧
      exec (.salsa20XorIc addr addr length nonce counter key) t = .next u ∧ u.mem = s.mem ∧
      t.faults = s.faults ∧ u.faults = s.faults ∧
      u.rspLog = s.rspLog ++ [{ status := 0x00, value := [] }, { status := 0x00, value := [] }]

/-- A long `SALSA20_XOR_IC` writes the same memory as two commands split at a multiple of 64 bytes, the second with
its counter advanced modulo 2^64, and all three end with `OK` (41_salsa20_stream section 3; program P3 of 95_test_vectors). -/
def Obligations.SplitXorCommandsCompose : Prop :=
  ∀ (s : State) (outAddr inAddr q rest : Nat) (nonce : List Byte) (counter : Word64) (key : List Byte),
    key.length = 32 ∧ nonce.length = 8 →
    FitsBelow s inAddr (64 * q + rest) → FitsBelow s outAddr (64 * q + rest) →
    (inAddr = outAddr ∨ inAddr + (64 * q + rest) ≤ outAddr ∨ outAddr + (64 * q + rest) ≤ inAddr) →
    ∃ t u v : State,
      exec (.salsa20XorIc outAddr inAddr (64 * q + rest) nonce counter key) s = .next t ∧
      exec (.salsa20XorIc outAddr inAddr (64 * q) nonce counter key) s = .next u ∧
      exec (.salsa20XorIc (outAddr + 64 * q) (inAddr + 64 * q) rest nonce
        (add64 counter (BitVec.ofNat 64 q)) key) u = .next v ∧
      v.mem = t.mem ∧ t.faults = s.faults ∧ u.faults = s.faults ∧ v.faults = s.faults ∧
      t.rspLog = s.rspLog ++ [{ status := 0x00, value := [] }] ∧
      v.rspLog = s.rspLog ++ [{ status := 0x00, value := [] }, { status := 0x00, value := [] }]

/-! ### SHA-512 datapath -/

/-- R141, R142: the tables `IV` and `K` by value, `K` four words to a row as the spec prints it, and by what they are:
the first 64 bits of the fractional parts of the square roots of the first eight primes and of the cube roots of the
first eighty. The spec marks the values as general knowledge. -/
def Obligations.ConstantTables : Prop :=
  let root (n p word : Nat) : Prop :=
    ∃ q < 8, (2 ^ 64 * q + word) ^ n ≤ p * 2 ^ (64 * n) ∧ p * 2 ^ (64 * n) < (2 ^ 64 * q + word + 1) ^ n
  let primes := (List.range 410).filter fun p => decide p.Prime
  iv = #v[0x6a09e667f3bcc908, 0xbb67ae8584caa73b, 0x3c6ef372fe94f82b, 0xa54ff53a5f1d36f1,
    0x510e527fade682d1, 0x9b05688c2b3e6c1f, 0x1f83d9abfb41bd6b, 0x5be0cd19137e2179] ∧
  ((List.finRange 20).map fun r : Fin 20 =>
      (roundConstant ⟨4 * r, by omega⟩ ++ roundConstant ⟨4 * r + 1, by omega⟩ ++
        roundConstant ⟨4 * r + 2, by omega⟩ ++ roundConstant ⟨4 * r + 3, by omega⟩).toNat) =
    [
      0x428a2f98d728ae227137449123ef65cdb5c0fbcfec4d3b2fe9b5dba58189dbbc,
      0x3956c25bf348b53859f111f1b605d019923f82a4af194f9bab1c5ed5da6d8118,
      0xd807aa98a303024212835b0145706fbe243185be4ee4b28c550c7dc3d5ffb4e2,
      0x72be5d74f27b896f80deb1fe3b1696b19bdc06a725c71235c19bf174cf692694,
      0xe49b69c19ef14ad2efbe4786384f25e30fc19dc68b8cd5b5240ca1cc77ac9c65,
      0x2de92c6f592b02754a7484aa6ea6e4835cb0a9dcbd41fbd476f988da831153b5,
      0x983e5152ee66dfaba831c66d2db43210b00327c898fb213fbf597fc7beef0ee4,
      0xc6e00bf33da88fc2d5a79147930aa72506ca6351e003826f142929670a0e6e70,
      0x27b70a8546d22ffc2e1b21385c26c9264d2c6dfc5ac42aed53380d139d95b3df,
      0x650a73548baf63de766a0abb3c77b2a881c2c92e47edaee692722c851482353b,
      0xa2bfe8a14cf10364a81a664bbc423001c24b8b70d0f89791c76c51a30654be30,
      0xd192e819d6ef5218d69906245565a910f40e35855771202a106aa07032bbd1b8,
      0x19a4c116b8d2d0c81e376c085141ab532748774cdf8eeb9934b0bcb5e19b48a8,
      0x391c0cb3c5c95a634ed8aa4ae3418acb5b9cca4f7763e373682e6ff3d6b2b8a3,
      0x748f82ee5defb2fc78a5636f43172f6084c87814a1f0ab728cc702081a6439ec,
      0x90befffa23631e28a4506cebde82bde9bef9a3f7b2c67915c67178f2e372532b,
      0xca273eceea26619cd186b8c721c0c207eada7dd6cde0eb1ef57d4f7fee6ed178,
      0x06f067aa72176fba0a637dc5a2c898a6113f9804bef90dae1b710b35131c471b,
      0x28db77f523047d8432caab7b40c724933c9ebe0a15c9bebc431d67c49c100d4c,
      0x4cc5d4becb3e42b6597f299cfc657e2a5fcb6fab3ad6faec6c44198c4a475817] ∧
  primes.length = 80 ∧
  (∀ i : Fin 8, root 2 (primes.getD i 0) iv[i].toNat) ∧
  ∀ t : Fin 80, root 3 (primes.getD t 0) (roundConstant t).toNat

/-- R143, R144: `Ch` chooses and `Maj` takes the majority, bit by bit. -/
def Obligations.ChooseAndMajorityAreBitwise : Prop :=
  (∀ (x y z : Word64) (i : Nat), i < 64 →
    (ch x y z).getLsbD i = (if x.getLsbD i then y.getLsbD i else z.getLsbD i)) ∧
  (∀ (x y z : Word64) (i : Nat), i < 64 →
    (maj x y z).getLsbD i =
      decide (2 ≤ (x.getLsbD i).toNat + (y.getLsbD i).toNat + (z.getLsbD i).toNat))

/-- R145, R146, R147, R148: the four sigma functions bit by bit; a rotated term takes bit `(i + n) mod 64`, a
shifted one bit `i + n`, which is 0 past the top. -/
def Obligations.SigmaFunctionsBitByBit : Prop :=
  ∀ (x : Word64) (i : Nat), i < 64 →
    (bsig0 x).getLsbD i =
      (x.getLsbD ((i + 28) % 64) ^^ x.getLsbD ((i + 34) % 64) ^^ x.getLsbD ((i + 39) % 64)) ∧
    (bsig1 x).getLsbD i =
      (x.getLsbD ((i + 14) % 64) ^^ x.getLsbD ((i + 18) % 64) ^^ x.getLsbD ((i + 41) % 64)) ∧
    (ssig0 x).getLsbD i =
      (x.getLsbD ((i + 1) % 64) ^^ x.getLsbD ((i + 8) % 64) ^^ x.getLsbD (i + 7)) ∧
    (ssig1 x).getLsbD i =
      (x.getLsbD ((i + 19) % 64) ^^ x.getLsbD ((i + 61) % 64) ^^ x.getLsbD (i + 6))

/-- R149, R150: the schedule of a block, whatever `W` held: sixteen big-endian words, then the recurrence. -/
def Obligations.MessageScheduleRecurrence : Prop :=
  ∀ (block : List Byte) (r : ShaRegs),
    (∀ t : Fin 16, (schedExpand (schedLoad block r)).w[t.val] = be64Load block (8 * t.val)) ∧
    (∀ (t : Nat) (h : t < 64),
      (schedExpand (schedLoad block r)).w[t + 16] =
        add64 (add64 (add64 (ssig1 (schedExpand (schedLoad block r)).w[t + 14])
          (schedExpand (schedLoad block r)).w[t + 9]) (ssig0 (schedExpand (schedLoad block r)).w[t + 1]))
          (schedExpand (schedLoad block r)).w[t])

/-- R151, R153, R154: loading the working variables, one step, and adding back (sanity). -/
def Obligations.StepAndAddBackFormulas : Prop :=
  (∀ (hash : Vector Word64 8) (r : ShaRegs),
    let v := loadVars hash r
    v.a = hash[0] ∧ v.b = hash[1] ∧ v.c = hash[2] ∧ v.d = hash[3] ∧ v.e = hash[4] ∧ v.f = hash[5] ∧
      v.g = hash[6] ∧ v.h = hash[7] ∧ v.w = r.w) ∧
  (∀ (t : Fin 80) (r : ShaRegs),
    let t1 := add64 (add64 (add64 (add64 r.h (bsig1 r.e)) (ch r.e r.f r.g)) (roundConstant t)) r.w[t]
    let t2 := add64 (bsig0 r.a) (maj r.a r.b r.c)
    let v := shaStep t r
    v.t1 = t1 ∧ v.t2 = t2 ∧ v.h = r.g ∧ v.g = r.f ∧ v.f = r.e ∧ v.e = add64 r.d t1 ∧ v.d = r.c ∧ v.c = r.b ∧
      v.b = r.a ∧ v.a = add64 t1 t2 ∧ v.w = r.w ∧ v.padbuf = r.padbuf) ∧
  (∀ (r : ShaRegs) (hash : Vector Word64 8),
    addBack r hash =
      #v[add64 hash[0] r.a, add64 hash[1] r.b, add64 hash[2] r.c, add64 hash[3] r.d, add64 hash[4] r.e,
        add64 hash[5] r.f, add64 hash[6] r.g, add64 hash[7] r.h])

/-- R152: eighty steps in ascending order, none skipped or repeated, whatever the data; `T` then counts eighty. -/
def Obligations.EightyStepsAscending : Prop :=
  ∀ r : ShaRegs,
    shaSteps r = (List.finRange 80).foldl (fun r t => shaStep t r) { r with t := 0 } ∧ (shaSteps r).t = 80

/-- R155: a compression is load, expand, load variables, steps, add back; its new hash words are a function of the
old words and the block alone, whatever the working registers held; of the context it writes `H` alone. -/
def Obligations.CompressionIsPure : Prop :=
  ∀ (block : List Byte) (e : ShaEngine) (r : ShaRegs),
    (compress block e).ctx = { e.ctx with h := compressV e.ctx.h block } ∧
    addBack (shaSteps (loadVars e.ctx.h (schedExpand (schedLoad block r)))) e.ctx.h = compressV e.ctx.h block

/-- R175, R176: the padding of a tail of 0..127 bytes: 128 bytes up to a tail of 111, 256 above; tail, 0x80, zeros,
16-byte big-endian bit length of the whole message. The layout byte by byte is what R176 marks as derived from R175. -/
def Obligations.PaddingLayout : Prop :=
  ∀ (tail : List Byte) (bits : Word128), tail.length ≤ 127 →
    let total := add128 bits (BitVec.ofNat 128 (8 * tail.length))
    let size := if tail.length ≤ 111 then 128 else 256
    (pad tail bits).length = size ∧
    (∀ (p : Nat) (h : p < tail.length), (pad tail bits)[p]? = some tail[p]) ∧
    (pad tail bits)[tail.length]? = some 0x80 ∧
    (∀ p, tail.length < p → p < size - 16 → (pad tail bits)[p]? = some 0) ∧
    (pad tail bits).drop (size - 16) = be128Store total

/-! ### SHA-512 commands -/

/-- `SHA512_INIT`, in every phase (43_sha512_stream section 2). That it leaves the transient registers as they were is
the model's reading (notes/assumptions/15.md); the spec leaves them open after a command. -/
def Obligations.Sha512InitMeaning : Prop :=
  ∀ (s : State) (k : Nat),
    (k < nctx s →
      exec (.sha512Init k) s =
        .next (respond [] { s with ctxs := s.ctxs.set k { phase := .fresh, h := iv, len := 0, buf := [] } })) ∧
    (¬k < nctx s → exec (.sha512Init k) s = .next (takeException .illegalCommand s))

/-- R173: `SHA512_UPDATE_MULTI` checks context, order and fit; then the context's hash words are folded over the `n`
blocks in ascending address order, `LEN` advances by `1024*n` modulo 2^128 and the phase is `ABSORBING`. -/
def Obligations.Sha512UpdateMultiMeaning : Prop :=
  ∀ (s : State) (k inAddr n : Nat),
    let c := ctxAt s k
    (¬k < nctx s → exec (.sha512UpdateMulti k inAddr n) s = .next (takeException .illegalCommand s)) ∧
    (k < nctx s → ¬(c.phase = .fresh ∨ c.phase = .absorbing) →
      exec (.sha512UpdateMulti k inAddr n) s = .next (takeException .orderViolation s)) ∧
    (k < nctx s → c.phase = .fresh ∨ c.phase = .absorbing → 0 < n → ¬FitsBelow s inAddr (128 * n) →
      exec (.sha512UpdateMulti k inAddr n) s = .next (takeException .bufferViolation s)) ∧
    (k < nctx s → c.phase = .fresh ∨ c.phase = .absorbing → n = 0 ∨ FitsBelow s inAddr (128 * n) →
      exec (.sha512UpdateMulti k inAddr n) s =
        .next (respond [] (retireSha { s with
          ctxs := s.ctxs.set k { c with
            phase := .absorbing, h := absorbV c.h (memRead s.mem inAddr (128 * n)) n,
            len := add128 c.len (BitVec.ofNat 128 (1024 * n)) } })))

/-- R174: `SHA512_UPDATE` is `SHA512_UPDATE_MULTI` with `n = 1` in every state, its exceptions included; when the
checks of R173 hold it answers the state below. -/
def Obligations.Sha512UpdateMeaning : Prop :=
  ∀ (s : State) (k inAddr : Nat),
    let c := ctxAt s k
    exec (.sha512Update k inAddr) s = exec (.sha512UpdateMulti k inAddr 1) s ∧
    (k < nctx s → c.phase = .fresh ∨ c.phase = .absorbing → FitsBelow s inAddr 128 →
      exec (.sha512Update k inAddr) s =
        .next (respond [] (retireSha { s with
          ctxs := s.ctxs.set k { c with
            phase := .absorbing, h := compressV c.h (memRead s.mem inAddr 128), len := add128 c.len 1024 } })))

/-- R177, R178, R179: `SHA512_UPDATE_LAST` checks context, size, order and fit in that order; then the one or two
blocks of the padded tail are compressed, its length field built from `LEN` as it was; `LEN` advances by
`8*length` and the phase is `PADDED`. -/
def Obligations.Sha512UpdateLastMeaning : Prop :=
  ∀ (s : State) (k inAddr length : Nat),
    let c := ctxAt s k
    let p := pad (memRead s.mem inAddr length) c.len
    (¬k < nctx s → exec (.sha512UpdateLast k inAddr length) s = .next (takeException .illegalCommand s)) ∧
    (k < nctx s → 127 < length →
      exec (.sha512UpdateLast k inAddr length) s = .next (takeException .sizeMismatch s)) ∧
    (k < nctx s → length ≤ 127 → ¬(c.phase = .fresh ∨ c.phase = .absorbing) →
      exec (.sha512UpdateLast k inAddr length) s = .next (takeException .orderViolation s)) ∧
    (k < nctx s → length ≤ 127 → c.phase = .fresh ∨ c.phase = .absorbing → 0 < length →
      ¬FitsBelow s inAddr length →
      exec (.sha512UpdateLast k inAddr length) s = .next (takeException .bufferViolation s)) ∧
    (k < nctx s → length ≤ 127 → c.phase = .fresh ∨ c.phase = .absorbing → length = 0 ∨ FitsBelow s inAddr length →
      exec (.sha512UpdateLast k inAddr length) s =
        .next (respond [] (retireSha { s with
          ctxs := s.ctxs.set k {
            phase := .padded, h := absorbV c.h p (if length ≤ 111 then 1 else 2),
            len := add128 c.len (BitVec.ofNat 128 (8 * length)), buf := [] } })))

/-- `SHA512_FINISH` responds the eight words big-endian, `H[0]` first, and changes only `PHASE` (43_sha512_stream
section 2). That it leaves the transient registers as they were is the model's reading (notes/assumptions/15.md); the
spec leaves them open after a command. -/
def Obligations.Sha512FinishMeaning : Prop :=
  ∀ (s : State) (k : Nat),
    let c := ctxAt s k
    (¬k < nctx s → exec (.sha512Finish k) s = .next (takeException .illegalCommand s)) ∧
    (k < nctx s → c.phase ≠ .padded → exec (.sha512Finish k) s = .next (takeException .orderViolation s)) ∧
    (k < nctx s → c.phase = .padded →
      exec (.sha512Finish k) s =
        .next (respond (c.h.toList.flatMap be64Store)
          { s with ctxs := s.ctxs.set k { c with phase := .finalized } }))

/-- R182: `SHA512_HASH` responds the value-level digest of the bytes it reads; no context is read or written. -/
def Obligations.Sha512HashMeaning : Prop :=
  ∀ (s : State) (inAddr length : Nat),
    (0 < length → ¬FitsBelow s inAddr length →
      exec (.sha512Hash inAddr length) s = .next (takeException .bufferViolation s)) ∧
    (length = 0 ∨ FitsBelow s inAddr length →
      exec (.sha512Hash inAddr length) s =
        .next (respond (sha512V (memRead s.mem inAddr length)) (retireSha s)))

/-- Two `SHA512_UPDATE_MULTI` at consecutive addresses leave the contexts that one of all their blocks leaves, and all
three end with `OK`
(43_sha512_stream section 2). -/
def Obligations.UpdateMultiComposes : Prop :=
  ∀ (s : State) (k inAddr n1 n2 : Nat),
    k < nctx s → (ctxAt s k).phase = .fresh ∨ (ctxAt s k).phase = .absorbing →
    FitsBelow s inAddr (128 * (n1 + n2)) →
    ∃ t u v : State,
      exec (.sha512UpdateMulti k inAddr (n1 + n2)) s = .next t ∧
      exec (.sha512UpdateMulti k inAddr n1) s = .next u ∧
      exec (.sha512UpdateMulti k (inAddr + 128 * n1) n2) u = .next v ∧
      v.ctxs = t.ctxs ∧ v.mem = t.mem ∧ t.faults = s.faults ∧ u.faults = s.faults ∧ v.faults = s.faults ∧
      t.rspLog = s.rspLog ++ [{ status := 0x00, value := [] }] ∧
      v.rspLog = s.rspLog ++ [{ status := 0x00, value := [] }, { status := 0x00, value := [] }]

/-- Incremental hashing equals one-shot hashing (43_sha512_stream section 3): in any state and on any context,
`SHA512_INIT`, one `SHA512_UPDATE_MULTI` for each part of any split of the full-block prefix, `SHA512_UPDATE_LAST` on
the rest and `SHA512_FINISH` all answer, and the last one's response is the response of `SHA512_HASH` of the whole
message. -/
def Obligations.IncrementalHashEqualsOneShot : Prop :=
  ∀ (s : State) (k inAddr : Nat) (parts : List Nat) (tail : Nat),
    k < nctx s → tail ≤ 127 → FitsBelow s inAddr (128 * parts.sum + tail) →
    let updates : List Instr :=
      (parts.zip (parts.inits.map List.sum)).map fun q => .sha512UpdateMulti k (inAddr + 128 * q.2) q.1
    let commands : List Instr :=
      [.sha512Init k] ++ updates ++
        [.sha512UpdateLast k (inAddr + 128 * parts.sum) tail, .sha512Finish k]
    ∃ t u : State,
      commands.foldl
        (fun o i => match o with
          | .next x => exec i x
          | other => other) (Host.Outcome.next s) = .next t ∧
      exec (.sha512Hash inAddr (128 * parts.sum + tail)) s = .next u ∧
      t.rspLog.getLast? = u.rspLog.getLast? ∧ t.faults = s.faults ∧ t.mem = s.mem

/-- R185: the phase of the named context after each command, for commands whose other checks hold; a command not
legal in the phase raises `OrderViolation`. -/
def Obligations.PhaseTransitions : Prop :=
  ∀ (s : State) (k inAddr n length : Nat),
    k < nctx s → length ≤ 127 → FitsBelow s inAddr 128 → FitsBelow s inAddr (128 * n) →
    FitsBelow s inAddr length →
    let absorbs : Bool := (ctxAt s k).phase = .fresh || (ctxAt s k).phase = .absorbing
    let after (i : Instr) (legal : Bool) (p : Phase) : Prop :=
      ∃ t, exec i s = .next t ∧
        if legal then (ctxAt t k).phase = p ∧ t.faults = s.faults else t = takeException .orderViolation s
    after (.sha512Init k) true .fresh ∧
    after (.sha512Update k inAddr) absorbs .absorbing ∧
    after (.sha512UpdateMulti k inAddr n) absorbs .absorbing ∧
    after (.sha512UpdateLast k inAddr length) absorbs .padded ∧
    after (.sha512Finish k) ((ctxAt s k).phase = .padded) .finalized ∧
    ∃ t, exec (.sha512Hash inAddr length) s = .next t ∧ t.ctxs = s.ctxs

/-! ### Exceptions -/

/-- R209: the exception of every command in every state, by the fixed priority: no such context, wrong size, wrong
order, bad buffer. When none of the four conditions holds the command ends with `OK`. -/
def Obligations.ExceptionPriority : Prop :=
  ∀ (s : State) (i : Instr),
    (NamesNoContext s i → exec i s = .next (takeException .illegalCommand s)) ∧
    (¬NamesNoContext s i → WrongSize i → exec i s = .next (takeException .sizeMismatch s)) ∧
    (¬NamesNoContext s i → ¬WrongSize i → OutOfOrder s i →
      exec i s = .next (takeException .orderViolation s)) ∧
    (¬NamesNoContext s i → ¬WrongSize i → ¬OutOfOrder s i → BadBuffer s i →
      exec i s = .next (takeException .bufferViolation s)) ∧
    (¬NamesNoContext s i → ¬WrongSize i → ¬OutOfOrder s i → ¬BadBuffer s i →
      ∃ (t : State) (v : List Byte), exec i s = .next t ∧
        t.rspLog = s.rspLog ++ [{ status := 0x00, value := v }] ∧ t.faults = s.faults)

/-- R210: a command either ends with `OK`, its response value as long as its record gives, or ends with a cause code,
an empty value and one recorded fault, with every other part of the state as it was. -/
def Obligations.ExceptionsArePrecise : Prop :=
  ∀ (s t : State) (i : Instr), exec i s = .next t →
    (∃ v : List Byte, v.length = valueLength i ∧
      t.rspLog = s.rspLog ++ [{ status := 0x00, value := v }] ∧ t.faults = s.faults) ∨
    (∃ c : Cause, t = { s with
      rspLog := s.rspLog ++ [{ status := causeCode c, value := [] }], faults := s.faults ++ [c] })

/-- R90: the codes of `RSP.status`; the response of a command carries `OK` and a value of the length its record
gives, or one of the four codes and no value. -/
def Obligations.ResponseEncoding : Prop :=
  (okCode = 0x00 ∧ causeCode .illegalCommand = 0x01 ∧ causeCode .sizeMismatch = 0x02 ∧
    causeCode .orderViolation = 0x03 ∧ causeCode .bufferViolation = 0x04) ∧
  ∀ (s t : State) (r : Record) (rest : List Record), s.cmdQueue = r :: rest → step s = .next t →
    ∃ rsp : Response, t.rspLog = s.rspLog ++ [rsp] ∧
      ((rsp.status = 0x00 ∧ ∃ i, decode r = .ok i ∧ rsp.value.length = valueLength i) ∨
        (rsp.status ∈ [0x01, 0x02, 0x03, 0x04] ∧ rsp.value = []))

/-- Every command answers a next state in every state, and so does every step: no failure depends on data, nothing
blocks, nothing stops (60_exceptions section 3, 70_reset_and_hazards section 4). -/
def Obligations.EveryStepAnswers : Prop :=
  (∀ (s : State) (i : Instr), ∃ t, exec i s = .next t) ∧ ∀ s : State, ∃ t, step s = .next t

/-- Empty transfers read and write no memory and are never refused for their addresses (20_memory section 2,
60_exceptions section 1); what `SHA512_UPDATE_MULTI` of no block and `SHA512_UPDATE_LAST` and `SHA512_HASH` of no byte
do to the context and respond is 43_sha512_stream sections 2 and 3. -/
def Obligations.EmptyTransfersIgnoreAddresses : Prop :=
  ∀ (s : State) (nonce key : List Byte) (counter : Word64) (k a b : Nat),
    key.length = 32 → nonce.length = 8 → k < nctx s → (ctxAt s k).phase = .fresh →
    exec (.salsa20XorIc a b 0 nonce counter key) s = .next (respond [] (retireSalsa s)) ∧
    exec (.salsa20Xor a b 0 nonce key) s = .next (respond [] (retireSalsa s)) ∧
    exec (.salsa20Stream a 0 nonce key) s = .next (respond [] (retireSalsa s)) ∧
    exec (.sha512UpdateMulti k a 0) s =
      .next (respond [] (retireSha { s with ctxs := s.ctxs.set k { ctxAt s k with phase := .absorbing } })) ∧
    (∃ t, exec (.sha512UpdateLast k a 0) s = .next t ∧ t.mem = s.mem ∧ (ctxAt t k).phase = .padded ∧
      (ctxAt t k).len = (ctxAt s k).len ∧ t.faults = s.faults ∧
      t.rspLog = s.rspLog ++ [{ status := 0x00, value := [] }]) ∧
    exec (.sha512Hash a 0) s = .next (respond (sha512V []) (retireSha s))

/-! ### Whole-machine rules -/

/-- A command's writes to memory stay inside its write footprint, and a Salsa20 command that ends with `OK` leaves
every other byte as it was (20_memory section 2): for every address outside the footprint, whose address is the
`outAddr` operand itself, a read gives what it gave before. -/
def Obligations.WritesStayInTheFootprint : Prop :=
  ∀ (s t : State) (i : Instr) (x : Nat), exec i s = .next t →
    (x < (writeFootprint i).1 ∨ (writeFootprint i).1 + (writeFootprint i).2 ≤ x) →
    readByte t.mem x = readByte s.mem x

/-- A command depends on memory only through its read footprint (20_memory section 2): two memories that agree there
give the same responses, contexts and faults, and when the command ends with `OK` the same bytes in its write
footprint. -/
def Obligations.ReadsStayInTheFootprint : Prop :=
  ∀ (s t t' : State) (m : Memory) (i : Instr),
    memoryWf s.mem = true → memoryWf m = true →
    memRead s.mem (readFootprint i).1 (readFootprint i).2 = memRead m (readFootprint i).1 (readFootprint i).2 →
    exec i s = .next t → exec i { s with mem := m } = .next t' →
    t'.rspLog = t.rspLog ∧ t'.ctxs = t.ctxs ∧ t'.faults = t.faults ∧
    (t.faults = s.faults →
      memRead t'.mem (writeFootprint i).1 (writeFootprint i).2 =
        memRead t.mem (writeFootprint i).1 (writeFootprint i).2)

/-- The engines are independent (00_scope section 1): a Salsa20 command changes no context and no SHA-512 register, a
SHA-512 command no Salsa20 register. A SHA-512 command writes no byte of memory (20_memory section 2). No command
changes the parameters or the number of contexts (00_scope section 3), which stand in the state by the model's choice
(notes/assumptions/5.md), nor the host's queue, which is the model's form of the interface (notes/assumptions/2.md). -/
def Obligations.EnginesAreIndependent : Prop :=
  ∀ (s t : State) (i : Instr), exec i s = .next t →
    t.aw = s.aw ∧ t.lenw = s.lenw ∧ nctx t = nctx s ∧ t.cmdQueue = s.cmdQueue ∧
    (isSalsa i = true → t.ctxs = s.ctxs ∧ t.sha = s.sha) ∧
    (isSalsa i = false → t.mem = s.mem ∧ t.salsa = s.salsa)

/-- A command changes no context but the one it names (10_state section 6). -/
def Obligations.OtherContextsAreUntouched : Prop :=
  ∀ (s t : State) (i : Instr) (k : Nat), exec i s = .next t → ctxOperand i ≠ some k → t.ctxs[k]? = s.ctxs[k]?

/-- A SHA-512 command depends on no context but the one it names, and `SHA512_HASH` and the Salsa20 commands on none
(10_state sections 6 and 8). -/
def Obligations.CommandsReadOnlyTheirContext : Prop :=
  ∀ (s t t' : State) (ctxs : List Context) (i : Instr),
    ctxs.length = s.ctxs.length → (∀ k, ctxOperand i = some k → ctxs[k]? = s.ctxs[k]?) →
    exec i s = .next t → exec i { s with ctxs := ctxs } = .next t' →
    t'.rspLog = t.rspLog ∧ t'.mem = t.mem ∧ t'.faults = t.faults ∧
    ∀ k, ctxOperand i = some k → t'.ctxs[k]? = t.ctxs[k]?

/-- Exactly one response per command (10_state section 5): a step with a command pending takes it off the queue and
appends one response; the queue and the log are not touched otherwise. -/
def Obligations.OneResponsePerCommand : Prop :=
  ∀ (s t : State), step s = .next t →
    (s.cmdQueue = [] ∧ t = s) ∨
    ∃ (r : Record) (rsp : Response), s.cmdQueue = r :: t.cmdQueue ∧ t.rspLog = s.rspLog ++ [rsp] ∧
      ResponseSound rsp

/-- No command returns a context to `UNINIT` (70_reset_and_hazards section 2). -/
def Obligations.NoCommandReturnsToUninit : Prop :=
  ∀ (s t : State) (i : Instr) (k : Nat), exec i s = .next t →
    (ctxAt s k).phase ≠ .uninit → (ctxAt t k).phase ≠ .uninit

/-- Commands that keep their operand contracts never raise `IllegalCommand` or `SizeMismatch` (30_encoding section 2). -/
def Obligations.WellFormedCommandsPassTheBoundary : Prop :=
  ∀ (s : State) (i : Instr) (c : Cause), i.wellFormed (params s) = true →
    exec i s = .next (takeException c s) → c = .orderViolation ∨ c = .bufferViolation

/-- No behaviour depends on what the transient registers hold (10_state section 1, 70_reset_and_hazards section 1): two
states that agree but for them step to states that agree but for them, after any number of steps. -/
def Obligations.TransientRegistersAreInvisible : Prop :=
  ∀ (n : Nat) (s s' : State), AgreeButTransient s s' →
    ∃ t t' : State, Host.Core.run Sys2Proof.core n s = .next t ∧ Host.Core.run Sys2Proof.core n s' = .next t' ∧ AgreeButTransient t t'

/-- The invariant is kept by every step from every sound state: memory canonical and inside the address space, `BUF`
empty, fresh contexts at `IV` and length 0, `LEN` of an absorbing context a multiple of 1024 bits, responses of the
shapes the spec gives, and the recorded faults exactly the statuses other than `OK` (10_state, 60_exceptions). -/
def Obligations.StepKeepsSoundness : Prop :=
  ∀ (s t : State), Sound s → step s = .next t → Sound t

/-- The reset state is sound, under every choice of the parameters with at least one context and every sound memory
(70_reset_and_hazards section 1). -/
def Obligations.ResetIsSound : Prop :=
  Sound State.reset ∧
  ∀ (p : Params) (m : Memory), 1 ≤ p.nctx → MemorySound (State.resetWith p m) → Sound (State.resetWith p m)

/-- What reset leaves (70_reset_and_hazards section 1): every context `UNINIT` with `BUF` empty, no command pending, no
response owed, no fault recorded, `Mem` and the parameters as the platform has them. -/
def Obligations.ResetState : Prop :=
  ∀ (p : Params) (m : Memory),
    (State.resetWith p m).ctxs.length = p.nctx ∧
    (∀ c ∈ (State.resetWith p m).ctxs, c.phase = .uninit ∧ c.buf = []) ∧
    (State.resetWith p m).cmdQueue = [] ∧ (State.resetWith p m).rspLog = [] ∧
    (State.resetWith p m).faults = [] ∧ (State.resetWith p m).mem = m ∧
    (State.resetWith p m).aw = p.aw ∧ (State.resetWith p m).lenw = p.lenw
end

