-- ==== Sys2Proof/Laws/State.lean ====
section
/-! SUPPORT. What each shared state update does to each field of the state: one lemma per field and update, so that
no later proof unfolds a record update. -/

namespace Sys2Proof.Machine

/-! ### `respond` -/

@[simp] theorem respond_ctxs (v : List Byte) (s : State) : (respond v s).ctxs = s.ctxs := rfl
@[simp] theorem respond_salsa (v : List Byte) (s : State) : (respond v s).salsa = s.salsa := rfl
@[simp] theorem respond_sha (v : List Byte) (s : State) : (respond v s).sha = s.sha := rfl
@[simp] theorem respond_cmdQueue (v : List Byte) (s : State) : (respond v s).cmdQueue = s.cmdQueue := rfl
@[simp] theorem respond_rspLog (v : List Byte) (s : State) : (respond v s).rspLog = s.rspLog ++ [{ status := okCode, value := v }] := rfl
@[simp] theorem respond_faults (v : List Byte) (s : State) : (respond v s).faults = s.faults := rfl
@[simp] theorem respond_mem (v : List Byte) (s : State) : (respond v s).mem = s.mem := rfl
@[simp] theorem respond_aw (v : List Byte) (s : State) : (respond v s).aw = s.aw := rfl
@[simp] theorem respond_lenw (v : List Byte) (s : State) : (respond v s).lenw = s.lenw := rfl
@[simp] theorem respond_residueTick (v : List Byte) (s : State) : (respond v s).residueTick = s.residueTick := rfl

/-! ### `takeException` -/

@[simp] theorem takeException_ctxs (c : Cause) (s : State) : (takeException c s).ctxs = s.ctxs := rfl
@[simp] theorem takeException_salsa (c : Cause) (s : State) : (takeException c s).salsa = s.salsa := rfl
@[simp] theorem takeException_sha (c : Cause) (s : State) : (takeException c s).sha = s.sha := rfl
@[simp] theorem takeException_cmdQueue (c : Cause) (s : State) : (takeException c s).cmdQueue = s.cmdQueue := rfl
@[simp] theorem takeException_rspLog (c : Cause) (s : State) : (takeException c s).rspLog = s.rspLog ++ [{ status := causeCode c, value := [] }] := rfl
@[simp] theorem takeException_faults (c : Cause) (s : State) : (takeException c s).faults = s.faults ++ [c] := rfl
@[simp] theorem takeException_mem (c : Cause) (s : State) : (takeException c s).mem = s.mem := rfl
@[simp] theorem takeException_aw (c : Cause) (s : State) : (takeException c s).aw = s.aw := rfl
@[simp] theorem takeException_lenw (c : Cause) (s : State) : (takeException c s).lenw = s.lenw := rfl
@[simp] theorem takeException_residueTick (c : Cause) (s : State) : (takeException c s).residueTick = s.residueTick := rfl

/-! ### `setCtx` -/

@[simp] theorem setCtx_ctxs (s : State) (i : Nat) (c : Context) : (setCtx s i c).ctxs = s.ctxs.set i c := rfl
@[simp] theorem setCtx_salsa (s : State) (i : Nat) (c : Context) : (setCtx s i c).salsa = s.salsa := rfl
@[simp] theorem setCtx_sha (s : State) (i : Nat) (c : Context) : (setCtx s i c).sha = s.sha := rfl
@[simp] theorem setCtx_cmdQueue (s : State) (i : Nat) (c : Context) : (setCtx s i c).cmdQueue = s.cmdQueue := rfl
@[simp] theorem setCtx_rspLog (s : State) (i : Nat) (c : Context) : (setCtx s i c).rspLog = s.rspLog := rfl
@[simp] theorem setCtx_faults (s : State) (i : Nat) (c : Context) : (setCtx s i c).faults = s.faults := rfl
@[simp] theorem setCtx_mem (s : State) (i : Nat) (c : Context) : (setCtx s i c).mem = s.mem := rfl
@[simp] theorem setCtx_aw (s : State) (i : Nat) (c : Context) : (setCtx s i c).aw = s.aw := rfl
@[simp] theorem setCtx_lenw (s : State) (i : Nat) (c : Context) : (setCtx s i c).lenw = s.lenw := rfl
@[simp] theorem setCtx_residueTick (s : State) (i : Nat) (c : Context) : (setCtx s i c).residueTick = s.residueTick := rfl

/-! ### `retireSalsa` -/

@[simp] theorem retireSalsa_ctxs (s : State) : (retireSalsa s).ctxs = s.ctxs := rfl
@[simp] theorem retireSalsa_salsa (s : State) : (retireSalsa s).salsa = salsaResidue s.residueTick := rfl
@[simp] theorem retireSalsa_sha (s : State) : (retireSalsa s).sha = s.sha := rfl
@[simp] theorem retireSalsa_cmdQueue (s : State) : (retireSalsa s).cmdQueue = s.cmdQueue := rfl
@[simp] theorem retireSalsa_rspLog (s : State) : (retireSalsa s).rspLog = s.rspLog := rfl
@[simp] theorem retireSalsa_faults (s : State) : (retireSalsa s).faults = s.faults := rfl
@[simp] theorem retireSalsa_mem (s : State) : (retireSalsa s).mem = s.mem := rfl
@[simp] theorem retireSalsa_aw (s : State) : (retireSalsa s).aw = s.aw := rfl
@[simp] theorem retireSalsa_lenw (s : State) : (retireSalsa s).lenw = s.lenw := rfl
@[simp] theorem retireSalsa_residueTick (s : State) : (retireSalsa s).residueTick = s.residueTick + 1 := rfl

/-! ### `retireSha` -/

@[simp] theorem retireSha_ctxs (s : State) : (retireSha s).ctxs = s.ctxs := rfl
@[simp] theorem retireSha_salsa (s : State) : (retireSha s).salsa = s.salsa := rfl
@[simp] theorem retireSha_sha (s : State) : (retireSha s).sha = shaResidue s.residueTick := rfl
@[simp] theorem retireSha_cmdQueue (s : State) : (retireSha s).cmdQueue = s.cmdQueue := rfl
@[simp] theorem retireSha_rspLog (s : State) : (retireSha s).rspLog = s.rspLog := rfl
@[simp] theorem retireSha_faults (s : State) : (retireSha s).faults = s.faults := rfl
@[simp] theorem retireSha_mem (s : State) : (retireSha s).mem = s.mem := rfl
@[simp] theorem retireSha_aw (s : State) : (retireSha s).aw = s.aw := rfl
@[simp] theorem retireSha_lenw (s : State) : (retireSha s).lenw = s.lenw := rfl
@[simp] theorem retireSha_residueTick (s : State) : (retireSha s).residueTick = s.residueTick + 1 := rfl

/-! ### `takeCommand` -/

@[simp] theorem takeCommand_ctxs (rest : List Record) (s : State) : (takeCommand rest s).ctxs = s.ctxs := rfl
@[simp] theorem takeCommand_salsa (rest : List Record) (s : State) : (takeCommand rest s).salsa = s.salsa := rfl
@[simp] theorem takeCommand_sha (rest : List Record) (s : State) : (takeCommand rest s).sha = s.sha := rfl
@[simp] theorem takeCommand_cmdQueue (rest : List Record) (s : State) : (takeCommand rest s).cmdQueue = rest := rfl
@[simp] theorem takeCommand_rspLog (rest : List Record) (s : State) : (takeCommand rest s).rspLog = s.rspLog := rfl
@[simp] theorem takeCommand_faults (rest : List Record) (s : State) : (takeCommand rest s).faults = s.faults := rfl
@[simp] theorem takeCommand_mem (rest : List Record) (s : State) : (takeCommand rest s).mem = s.mem := rfl
@[simp] theorem takeCommand_aw (rest : List Record) (s : State) : (takeCommand rest s).aw = s.aw := rfl
@[simp] theorem takeCommand_lenw (rest : List Record) (s : State) : (takeCommand rest s).lenw = s.lenw := rfl
@[simp] theorem takeCommand_residueTick (rest : List Record) (s : State) : (takeCommand rest s).residueTick = s.residueTick := rfl

/-! ### `issueFirst` -/

@[simp] theorem issueFirst_ctxs (r : Record) (s : State) : (issueFirst r s).ctxs = s.ctxs := rfl
@[simp] theorem issueFirst_salsa (r : Record) (s : State) : (issueFirst r s).salsa = s.salsa := rfl
@[simp] theorem issueFirst_sha (r : Record) (s : State) : (issueFirst r s).sha = s.sha := rfl
@[simp] theorem issueFirst_cmdQueue (r : Record) (s : State) : (issueFirst r s).cmdQueue = r :: s.cmdQueue := rfl
@[simp] theorem issueFirst_rspLog (r : Record) (s : State) : (issueFirst r s).rspLog = s.rspLog := rfl
@[simp] theorem issueFirst_faults (r : Record) (s : State) : (issueFirst r s).faults = s.faults := rfl
@[simp] theorem issueFirst_mem (r : Record) (s : State) : (issueFirst r s).mem = s.mem := rfl
@[simp] theorem issueFirst_aw (r : Record) (s : State) : (issueFirst r s).aw = s.aw := rfl
@[simp] theorem issueFirst_lenw (r : Record) (s : State) : (issueFirst r s).lenw = s.lenw := rfl
@[simp] theorem issueFirst_residueTick (r : Record) (s : State) : (issueFirst r s).residueTick = s.residueTick := rfl

/-! ### Parameters -/

@[simp] theorem respond_nctx (v : List Byte) (s : State) : nctx (respond v s) = nctx s := rfl
@[simp] theorem takeException_nctx (c : Cause) (s : State) : nctx (takeException c s) = nctx s := rfl
@[simp] theorem retireSalsa_nctx (s : State) : nctx (retireSalsa s) = nctx s := rfl
@[simp] theorem retireSha_nctx (s : State) : nctx (retireSha s) = nctx s := rfl
@[simp] theorem takeCommand_nctx (rest : List Record) (s : State) : nctx (takeCommand rest s) = nctx s := rfl
@[simp] theorem setCtx_nctx (s : State) (i : Nat) (c : Context) : nctx (setCtx s i c) = nctx s := by
  simp [nctx]

/-- A context read back after being set. -/
theorem ctxAt_setCtx_self (s : State) (i : Nat) (c : Context) (h : i < nctx s) : ctxAt (setCtx s i c) i = c := by
  unfold nctx at h
  simp [ctxAt, List.getD, h]

/-- Setting one context leaves the others alone. -/
theorem ctxAt_setCtx_of_ne (s : State) (i k : Nat) (c : Context) (h : i ≠ k) : ctxAt (setCtx s i c) k = ctxAt s k := by
  simp [ctxAt, List.getD, h]

/-- An existing context is an entry of the context file. -/
theorem ctxAt_mem (s : State) (i : Nat) (h : i < nctx s) : ctxAt s i ∈ s.ctxs := by
  unfold nctx at h
  simp [ctxAt, List.getD, h]

end Sys2Proof.Machine
end

