-- ==== Sys2Proof/Laws/Command.lean ====
section
/-! SUPPORT. What a command can do: it answers a next state, which is either the exception of its first failing
check or its whole effect with its response. -/

namespace Sys2Proof.Machine

/-- No check fails exactly when all hold. -/
theorem firstFailure_eq_none (checks : List (Bool × Cause)) :
    firstFailure checks = none ↔ ∀ p ∈ checks, p.1 = true := by
  induction checks with
  | nil => simp [firstFailure]
  | cons p rest ih =>
    obtain ⟨b, c⟩ := p
    cases b <;> simp [firstFailure, ih]

/-- The reported cause is the cause of a check that fails. -/
theorem firstFailure_eq_some (checks : List (Bool × Cause)) (c : Cause) (h : firstFailure checks = some c) :
    (false, c) ∈ checks := by
  induction checks with
  | nil => simp [firstFailure] at h
  | cons p rest ih =>
    obtain ⟨b, d⟩ := p
    cases b
    · simp only [firstFailure] at h
      simp at h
      simp [h]
    · simp only [firstFailure, if_true] at h
      exact List.mem_cons_of_mem _ (ih h)

/-- The two ways a command ends. -/
theorem command_cases (checks : List (Bool × Cause)) (effect : State → State × List Byte) (s t : State)
    (h : command checks effect s = .next t) :
    (∃ c, firstFailure checks = some c ∧ t = takeException c s) ∨
      (firstFailure checks = none ∧ t = respond (effect s).2 (effect s).1) := by
  unfold command at h
  split at h
  · next c hc => exact .inl ⟨c, hc, by injection h with h; exact h.symm⟩
  · next hc => exact .inr ⟨hc, by injection h with h; exact h.symm⟩

/-- A command always answers a next state. -/
theorem command_answers (checks : List (Bool × Cause)) (effect : State → State × List Byte) (s : State) :
    ∃ t, command checks effect s = .next t := by
  unfold command
  split <;> exact ⟨_, rfl⟩

/-- A command whose checks all hold has its effect. -/
theorem command_of_checks (checks : List (Bool × Cause)) (effect : State → State × List Byte) (s : State)
    (h : ∀ p ∈ checks, p.1 = true) : command checks effect s = .next (respond (effect s).2 (effect s).1) := by
  simp [command, (firstFailure_eq_none checks).2 h]

/-! ### The checks as propositions -/

/-- `len(key) = 32` and `len(nonce) = 8`. -/
theorem keySizesOk_iff (key nonce : List Byte) :
    keySizesOk key nonce = true ↔ key.length = 32 ∧ nonce.length = 8 := by
  simp [keySizesOk]

/-- The tail is at most 127 bytes. -/
theorem tailSizeOk_iff (length : Nat) : tailSizeOk length = true ↔ length ≤ 127 := by
  simp [tailSizeOk]

/-- The context exists. -/
theorem ctxOk_iff (s : State) (k : Nat) : ctxOk s k = true ↔ k < nctx s := by
  simp [ctxOk]

/-- An empty footprint is not examined; another must lie below `2^AW`. -/
theorem footprintFits_iff (s : State) (a n : Nat) : footprintFits s a n = true ↔ n = 0 ∨ FitsBelow s a n := by
  unfold footprintFits FitsBelow
  rcases s with ⟨_, _, _, _, _, _, _, aw, _, _⟩
  cases aw <;> simp

/-- Empty, identical or disjoint. -/
theorem aliasingOk_iff (inAddr outAddr length : Nat) :
    aliasingOk inAddr outAddr length = true ↔
      length = 0 ∨ (inAddr = outAddr ∨ inAddr + length ≤ outAddr ∨ outAddr + length ≤ inAddr) := by
  simp [aliasingOk, or_assoc]

/-- The phases that absorb. -/
theorem absorbsIn_iff (p : Phase) : absorbsIn p = true ↔ p = .fresh ∨ p = .absorbing := by
  cases p <;> simp [absorbsIn]

/-- The phase that finishes. -/
theorem finishesIn_iff (p : Phase) : finishesIn p = true ↔ p = .padded := by
  cases p <;> simp [finishesIn]

/-! ### Commands -/

/-- The checks of a command, in the order of 60_exceptions R209. -/
def checksOf (s : State) : Instr → List (Bool × Cause)
  | .salsa20Keystream nonce _ key => [(keySizesOk key nonce, .sizeMismatch)]
  | .salsa20Stream outAddr length nonce key =>
    [(keySizesOk key nonce, .sizeMismatch), (footprintFits s outAddr length, .bufferViolation)]
  | .salsa20Xor outAddr inAddr length nonce key =>
    [(keySizesOk key nonce, .sizeMismatch),
      (footprintFits s inAddr length && footprintFits s outAddr length, .bufferViolation),
      (aliasingOk inAddr outAddr length, .bufferViolation)]
  | .salsa20XorIc outAddr inAddr length nonce _ key =>
    [(keySizesOk key nonce, .sizeMismatch),
      (footprintFits s inAddr length && footprintFits s outAddr length, .bufferViolation),
      (aliasingOk inAddr outAddr length, .bufferViolation)]
  | .sha512Init ctx => [(ctxOk s ctx, .illegalCommand)]
  | .sha512Update ctx inAddr =>
    [(ctxOk s ctx, .illegalCommand), (absorbsIn (ctxAt s ctx).phase, .orderViolation),
      (footprintFits s inAddr (128 * 1), .bufferViolation)]
  | .sha512UpdateMulti ctx inAddr n =>
    [(ctxOk s ctx, .illegalCommand), (absorbsIn (ctxAt s ctx).phase, .orderViolation),
      (footprintFits s inAddr (128 * n), .bufferViolation)]
  | .sha512UpdateLast ctx inAddr length =>
    [(ctxOk s ctx, .illegalCommand), (tailSizeOk length, .sizeMismatch),
      (absorbsIn (ctxAt s ctx).phase, .orderViolation), (footprintFits s inAddr length, .bufferViolation)]
  | .sha512Finish ctx => [(ctxOk s ctx, .illegalCommand), (finishesIn (ctxAt s ctx).phase, .orderViolation)]
  | .sha512Hash inAddr length => [(footprintFits s inAddr length, .bufferViolation)]

/-- The effect of a command whose checks hold: the state it leaves and its response value. -/
def effectOf : Instr → State → State × List Byte
  | .salsa20Keystream nonce counter key, s =>
    (retireSalsa { s with salsa := salsa20Block key nonce counter s.salsa },
      (salsa20Block key nonce counter s.salsa).ks.toList)
  | .salsa20Stream outAddr length nonce key, s => xorEffect outAddr none length nonce 0 key s
  | .salsa20Xor outAddr inAddr length nonce key, s => xorEffect outAddr (some inAddr) length nonce 0 key s
  | .salsa20XorIc outAddr inAddr length nonce counter key, s =>
    xorEffect outAddr (some inAddr) length nonce counter key s
  | .sha512Init ctx, s => (setCtx s ctx initBody, [])
  | .sha512Update ctx inAddr, s => onContext ctx (updateMultiBody s.mem inAddr 1) s
  | .sha512UpdateMulti ctx inAddr n, s => onContext ctx (updateMultiBody s.mem inAddr n) s
  | .sha512UpdateLast ctx inAddr length, s => onContext ctx (updateLastBody s.mem inAddr length) s
  | .sha512Finish ctx, s => (setCtx s ctx (finishBody (ctxAt s ctx)), digest (ctxAt s ctx).h)
  | .sha512Hash inAddr length, s =>
    (retireSha { s with sha := (hashEngine s.mem inAddr length s.sha).regs },
      digest (hashEngine s.mem inAddr length s.sha).ctx.h)

/-! ### What a shared effect leaves alone -/

@[simp] theorem onContext_salsa (k : Nat) (body : ShaEngine → ShaEngine) (s : State) :
    (onContext k body s).1.salsa = s.salsa := rfl
@[simp] theorem onContext_cmdQueue (k : Nat) (body : ShaEngine → ShaEngine) (s : State) :
    (onContext k body s).1.cmdQueue = s.cmdQueue := rfl
@[simp] theorem onContext_rspLog (k : Nat) (body : ShaEngine → ShaEngine) (s : State) :
    (onContext k body s).1.rspLog = s.rspLog := rfl
@[simp] theorem onContext_faults (k : Nat) (body : ShaEngine → ShaEngine) (s : State) :
    (onContext k body s).1.faults = s.faults := rfl
@[simp] theorem onContext_mem (k : Nat) (body : ShaEngine → ShaEngine) (s : State) :
    (onContext k body s).1.mem = s.mem := rfl
@[simp] theorem onContext_aw (k : Nat) (body : ShaEngine → ShaEngine) (s : State) :
    (onContext k body s).1.aw = s.aw := rfl
@[simp] theorem onContext_lenw (k : Nat) (body : ShaEngine → ShaEngine) (s : State) :
    (onContext k body s).1.lenw = s.lenw := rfl
@[simp] theorem onContext_ctxs (k : Nat) (body : ShaEngine → ShaEngine) (s : State) :
    (onContext k body s).1.ctxs = s.ctxs.set k (body { regs := s.sha, ctx := ctxAt s k }).ctx := rfl
@[simp] theorem onContext_sha (k : Nat) (body : ShaEngine → ShaEngine) (s : State) :
    (onContext k body s).1.sha = shaResidue s.residueTick := rfl
@[simp] theorem onContext_value (k : Nat) (body : ShaEngine → ShaEngine) (s : State) :
    (onContext k body s).2 = [] := rfl

@[simp] theorem xorEffect_ctxs (outAddr : Nat) (inAddr : Option Nat) (length : Nat) (nonce : List Byte) (c0 : Word64)
    (key : List Byte) (s : State) : (xorEffect outAddr inAddr length nonce c0 key s).1.ctxs = s.ctxs := rfl
@[simp] theorem xorEffect_sha (outAddr : Nat) (inAddr : Option Nat) (length : Nat) (nonce : List Byte) (c0 : Word64)
    (key : List Byte) (s : State) : (xorEffect outAddr inAddr length nonce c0 key s).1.sha = s.sha := rfl
@[simp] theorem xorEffect_cmdQueue (outAddr : Nat) (inAddr : Option Nat) (length : Nat) (nonce : List Byte) (c0 : Word64)
    (key : List Byte) (s : State) : (xorEffect outAddr inAddr length nonce c0 key s).1.cmdQueue = s.cmdQueue := rfl
@[simp] theorem xorEffect_rspLog (outAddr : Nat) (inAddr : Option Nat) (length : Nat) (nonce : List Byte) (c0 : Word64)
    (key : List Byte) (s : State) : (xorEffect outAddr inAddr length nonce c0 key s).1.rspLog = s.rspLog := rfl
@[simp] theorem xorEffect_faults (outAddr : Nat) (inAddr : Option Nat) (length : Nat) (nonce : List Byte) (c0 : Word64)
    (key : List Byte) (s : State) : (xorEffect outAddr inAddr length nonce c0 key s).1.faults = s.faults := rfl
@[simp] theorem xorEffect_aw (outAddr : Nat) (inAddr : Option Nat) (length : Nat) (nonce : List Byte) (c0 : Word64)
    (key : List Byte) (s : State) : (xorEffect outAddr inAddr length nonce c0 key s).1.aw = s.aw := rfl
@[simp] theorem xorEffect_lenw (outAddr : Nat) (inAddr : Option Nat) (length : Nat) (nonce : List Byte) (c0 : Word64)
    (key : List Byte) (s : State) : (xorEffect outAddr inAddr length nonce c0 key s).1.lenw = s.lenw := rfl
@[simp] theorem xorEffect_salsa (outAddr : Nat) (inAddr : Option Nat) (length : Nat) (nonce : List Byte) (c0 : Word64)
    (key : List Byte) (s : State) : (xorEffect outAddr inAddr length nonce c0 key s).1.salsa = salsaResidue s.residueTick := rfl
@[simp] theorem xorEffect_value (outAddr : Nat) (inAddr : Option Nat) (length : Nat) (nonce : List Byte) (c0 : Word64)
    (key : List Byte) (s : State) : (xorEffect outAddr inAddr length nonce c0 key s).2 = [] := rfl

/-- Every effect leaves the host's queue, the log, the recorded faults and the parameters alone. -/
theorem effectOf_kept (i : Instr) (s : State) :
    (effectOf i s).1.cmdQueue = s.cmdQueue ∧ (effectOf i s).1.rspLog = s.rspLog ∧
      (effectOf i s).1.faults = s.faults ∧ (effectOf i s).1.aw = s.aw ∧ (effectOf i s).1.lenw = s.lenw := by
  cases i <;> simp [effectOf]

/-- The checks depend on the contexts and on `AW` alone. -/
theorem checksOf_congr (s t : State) (i : Instr) (hc : s.ctxs = t.ctxs) (ha : s.aw = t.aw) :
    checksOf s i = checksOf t i := by
  rcases s with ⟨ctxs, _, _, _, _, _, _, aw, _, _⟩
  rcases t with ⟨ctxs', _, _, _, _, _, _, aw', _, _⟩
  subst hc
  subst ha
  cases i <;> rfl

/-- Every command is its checks, then its effect. -/
theorem exec_eq_command (i : Instr) (s : State) : exec i s = command (checksOf s i) (effectOf i) s := by
  cases i <;>
    simp only [exec, checksOf, execSalsa20Keystream, execSalsa20Stream, execSalsa20Xor, execSalsa20XorIc, xorIc,
      execSha512Init, execSha512Update, execSha512UpdateMulti, updateMulti, execSha512UpdateLast, execSha512Finish,
      execSha512Hash] <;>
    rw [command, command] <;> simp only [effectOf]

/-- The two ways `exec` ends. -/
theorem exec_cases (i : Instr) (s t : State) (h : exec i s = .next t) :
    (∃ c, firstFailure (checksOf s i) = some c ∧ t = takeException c s) ∨
      (firstFailure (checksOf s i) = none ∧ t = respond (effectOf i s).2 (effectOf i s).1) :=
  command_cases _ _ s t (exec_eq_command i s ▸ h)

/-- A command whose first failing check has cause `c` takes that exception. -/
theorem exec_of_failure (i : Instr) (s : State) (c : Cause) (h : firstFailure (checksOf s i) = some c) :
    exec i s = .next (takeException c s) := by
  rw [exec_eq_command, command]; simp only [h]

/-- A command none of whose checks fails has its effect. -/
theorem exec_of_checks (i : Instr) (s : State) (h : firstFailure (checksOf s i) = none) :
    exec i s = .next (respond (effectOf i s).2 (effectOf i s).1) := by
  rw [exec_eq_command, command]; simp only [h]

/-- What one step can do: nothing, refuse a reserved opcode, or run the decoded command. -/
theorem step_cases (s t : State) (h : step s = .next t) :
    (s.cmdQueue = [] ∧ t = s) ∨
      ∃ r rest, s.cmdQueue = r :: rest ∧
        ((∃ e, decode r = .error e ∧ t = takeException .illegalCommand (takeCommand rest s)) ∨
          ∃ i, decode r = .ok i ∧ exec i (takeCommand rest s) = .next t) := by
  unfold step at h
  split at h
  · next hq => exact .inl ⟨hq, by injection h with h; exact h.symm⟩
  · next r rest hq =>
    refine .inr ⟨r, rest, hq, ?_⟩
    split at h
    · next i hi => exact .inr ⟨i, hi, h⟩
    · next e he => exact .inl ⟨e, he, by injection h with h; exact h.symm⟩

end Sys2Proof.Machine
end

