-- ==== Sys2Proof/Laws/Fold.lean ====
section
/-! SUPPORT. Reasoning about the counted loops of the block, all of which are `Nat.fold`. -/

namespace Sys2Proof.Laws

/-- A property of the loop state, indexed by the number of iterations done, holds at the end of the loop. -/
theorem fold_inv {α : Type} (n : Nat) (f : (i : Nat) → i < n → α → α) (a : α) (P : Nat → α → Prop)
    (h0 : P 0 a) (hs : ∀ (i : Nat) (hi : i < n) (x : α), P i x → P (i + 1) (f i hi x)) : P n (Nat.fold n f a) := by
  induction n with
  | zero => simpa using h0
  | succ n ih =>
    rw [Nat.fold_succ]
    exact hs n (Nat.lt_succ_self n) _ (ih (fun i hi => f i (Nat.lt_succ_of_lt hi)) fun i hi => hs i (Nat.lt_succ_of_lt hi))

/-- A relation between two loop states, indexed by the number of iterations done, holds at the end. -/
theorem fold_rel {α β : Type} (n : Nat) (f : (i : Nat) → i < n → α → α) (g : (i : Nat) → i < n → β → β) (a : α)
    (b : β) (R : Nat → α → β → Prop) (h0 : R 0 a b)
    (hs : ∀ (i : Nat) (hi : i < n) (x : α) (y : β), R i x y → R (i + 1) (f i hi x) (g i hi y)) :
    R n (Nat.fold n f a) (Nat.fold n g b) := by
  induction n with
  | zero => simpa using h0
  | succ n ih =>
    rw [Nat.fold_succ, Nat.fold_succ]
    exact hs n (Nat.lt_succ_self n) _ _
      (ih (fun i hi => f i (Nat.lt_succ_of_lt hi)) (fun i hi => g i (Nat.lt_succ_of_lt hi))
        fun i hi => hs i (Nat.lt_succ_of_lt hi))

end Sys2Proof.Laws
end

