-- ==== Sys2Proof/Laws/Memory.lean ====
section
/-! SUPPORT. The laws of memory: read after write, the canonical form and the address bound are kept, and equal
contents are equal data. -/

namespace Sys2Proof.Machine

/-! ### One byte -/

/-- A write leaves every other address alone, whatever the form of the list. -/
theorem readByte_writeByte_of_ne (m : Memory) (a x : Nat) (v : Byte) (h : x ≠ a) :
    readByte (writeByte m a v) x = readByte m x := by
  induction m with
  | nil => by_cases hv : v = unlistedByte <;> simp [writeByte, readByte, hv, Ne.symm h]
  | cons p m ih =>
    obtain ⟨b, u⟩ := p
    unfold writeByte
    split
    · split <;> simp [readByte, Ne.symm h]
    · split
      · next hab => subst hab; split <;> simp [readByte, Ne.symm h]
      · simp [readByte, ih]

/-- Memory canonical from `lo` on reads as unlisted below `lo`. -/
theorem readByte_below (m : Memory) (lo x : Nat) (h : memoryWfFrom lo m = true) (hx : x < lo) :
    readByte m x = unlistedByte := by
  induction m generalizing lo with
  | nil => rfl
  | cons p m ih =>
    obtain ⟨b, u⟩ := p
    simp only [memoryWfFrom, Bool.and_eq_true, decide_eq_true_eq] at h
    have hb : b ≠ x := by omega
    simp only [readByte, hb, if_false]
    exact ih (b + 1) h.2 (by omega)

/-- A byte written to canonical memory is read back. -/
theorem readByte_writeByte_self_from (m : Memory) (lo a : Nat) (v : Byte) (h : memoryWfFrom lo m = true) :
    readByte (writeByte m a v) a = v := by
  induction m generalizing lo with
  | nil => by_cases hv : v = unlistedByte <;> simp [writeByte, readByte, hv]
  | cons p m ih =>
    obtain ⟨b, u⟩ := p
    simp only [memoryWfFrom, Bool.and_eq_true, decide_eq_true_eq] at h
    unfold writeByte
    split
    · next hab =>
      split
      · next hv =>
        have hb : b ≠ a := by omega
        simp only [readByte, hb, if_false]
        rw [hv]; exact readByte_below m (b + 1) a h.2 (by omega)
      · simp [readByte]
    · split
      · next hab =>
        subst hab
        split
        · next hv => rw [hv]; exact readByte_below m (a + 1) a h.2 (by omega)
        · simp [readByte]
      · next hne =>
        simp only [readByte, Ne.symm hne, if_false]
        exact ih (b + 1) h.2

/-- A byte written to canonical memory is read back. -/
theorem readByte_writeByte_self (m : Memory) (a : Nat) (v : Byte) (h : memoryWf m = true) :
    readByte (writeByte m a v) a = v :=
  readByte_writeByte_self_from m 0 a v h

/-- The canonical form from `lo` on is kept from a lower bound on. -/
theorem memoryWfFrom_mono (m : Memory) (lo lo' : Nat) (h : memoryWfFrom lo m = true) (hl : lo' ≤ lo) :
    memoryWfFrom lo' m = true := by
  cases m with
  | nil => rfl
  | cons p m =>
    obtain ⟨b, u⟩ := p
    simp only [memoryWfFrom, Bool.and_eq_true, decide_eq_true_eq] at h ⊢
    exact ⟨⟨by omega, h.1.2⟩, h.2⟩

theorem memoryWfFrom_writeByte (m : Memory) (lo a : Nat) (v : Byte) (h : memoryWfFrom lo m = true) (ha : lo ≤ a) :
    memoryWfFrom lo (writeByte m a v) = true := by
  induction m generalizing lo with
  | nil => by_cases hv : v = unlistedByte <;> simp [writeByte, memoryWfFrom, hv, ha]
  | cons p m ih =>
    obtain ⟨b, u⟩ := p
    have h0 := h
    simp only [memoryWfFrom, Bool.and_eq_true, decide_eq_true_eq] at h
    unfold writeByte
    split
    · next hab =>
      split
      · exact h0
      · next hv =>
        simp only [memoryWfFrom, Bool.and_eq_true, decide_eq_true_eq]
        exact ⟨⟨ha, hv⟩, ⟨by omega, h.1.2⟩, h.2⟩
    · split
      · next hab =>
        subst hab
        split
        · exact memoryWfFrom_mono m (a + 1) lo h.2 (by omega)
        · next hv =>
          simp only [memoryWfFrom, Bool.and_eq_true, decide_eq_true_eq]
          exact ⟨⟨ha, hv⟩, h.2⟩
      · simp only [memoryWfFrom, Bool.and_eq_true, decide_eq_true_eq]
        exact ⟨h.1, ih (b + 1) h.2 (by omega)⟩

/-- A write keeps the canonical form. -/
theorem memoryWf_writeByte (m : Memory) (a : Nat) (v : Byte) (h : memoryWf m = true) :
    memoryWf (writeByte m a v) = true :=
  memoryWfFrom_writeByte m 0 a v h (Nat.zero_le a)

/-- A write lists no address but its own and those listed before. -/
theorem mem_writeByte (m : Memory) (a : Nat) (v : Byte) (c : Host.Cell) (h : c ∈ writeByte m a v) :
    c.1 = a ∨ c ∈ m := by
  induction m with
  | nil =>
    unfold writeByte at h
    split at h
    · simp at h
    · rw [List.mem_singleton] at h; exact .inl (by rw [h])
  | cons p m ih =>
    obtain ⟨b, u⟩ := p
    unfold writeByte at h
    split at h
    · split at h
      · exact .inr h
      · rcases List.mem_cons.1 h with h | h
        · exact .inl (by rw [h])
        · exact .inr h
    · split at h
      · split at h
        · exact .inr (List.mem_cons_of_mem _ h)
        · rcases List.mem_cons.1 h with h | h
          · exact .inl (by rw [h])
          · exact .inr (List.mem_cons_of_mem _ h)
      · rcases List.mem_cons.1 h with h | h
        · exact .inr (by rw [h]; exact List.mem_cons_self)
        · rcases ih h with h | h
          · exact .inl h
          · exact .inr (List.mem_cons_of_mem _ h)

/-- Canonical memories with equal contents are equal data. -/
theorem memory_ext_from (m m' : Memory) (lo : Nat) (h : memoryWfFrom lo m = true) (h' : memoryWfFrom lo m' = true)
    (hr : ∀ x, readByte m x = readByte m' x) : m = m' := by
  induction m generalizing m' lo with
  | nil =>
    cases m' with
    | nil => rfl
    | cons p m' =>
      obtain ⟨b, u⟩ := p
      simp only [memoryWfFrom, Bool.and_eq_true, decide_eq_true_eq] at h'
      have hb := hr b
      simp only [readByte, if_true] at hb
      exact absurd hb.symm h'.1.2
  | cons p m ih =>
    obtain ⟨b, u⟩ := p
    have h0 := h
    simp only [memoryWfFrom, Bool.and_eq_true, decide_eq_true_eq] at h
    cases m' with
    | nil =>
      have hb := hr b
      simp only [readByte, if_true] at hb
      exact absurd hb h.1.2
    | cons p' m' =>
      obtain ⟨b', u'⟩ := p'
      have h0' := h'
      simp only [memoryWfFrom, Bool.and_eq_true, decide_eq_true_eq] at h'
      have hbb : b = b' := by
        rcases Nat.lt_trichotomy b b' with hlt | heq | hgt
        · have hb := hr b
          have hne : b' ≠ b := by omega
          simp only [readByte, if_true, hne, if_false, readByte_below m' (b' + 1) b h'.2 (by omega)] at hb
          exact absurd hb h.1.2
        · exact heq
        · have hb := hr b'
          have hne : b ≠ b' := by omega
          simp only [readByte, if_true, hne, if_false, readByte_below m (b + 1) b' h.2 (by omega)] at hb
          exact absurd hb.symm h'.1.2
      subst hbb
      have hu : u = u' := by simpa [readByte] using hr b
      subst hu
      have htail : m = m' := ih m' (b + 1) h.2 h'.2 fun x => by
        by_cases hx : b = x
        · subst hx
          rw [readByte_below m (b + 1) b h.2 (by omega), readByte_below m' (b + 1) b h'.2 (by omega)]
        · simpa [readByte, hx] using hr x
      rw [htail]

/-- Canonical memories with equal contents are equal data. -/
theorem memory_ext (m m' : Memory) (h : memoryWf m = true) (h' : memoryWf m' = true)
    (hr : ∀ x, readByte m x = readByte m' x) : m = m' :=
  memory_ext_from m m' 0 h h' hr

/-! ### Byte strings -/

@[simp] theorem memRead_length (m : Memory) (a n : Nat) : (memRead m a n).length = n := by
  induction n generalizing a with
  | zero => rfl
  | succ n ih => simp [memRead, ih]

/-- Byte `i` of `MemRead(a, n)` is `Mem[a + i]`. -/
theorem memRead_getElem (m : Memory) (a n i : Nat) (h : i < (memRead m a n).length) :
    (memRead m a n)[i] = readByte m (a + i) := by
  induction n generalizing a i with
  | zero => simp [memRead] at h
  | succ n ih =>
    cases i with
    | zero => simp [memRead]
    | succ i =>
      simp only [memRead, List.getElem_cons_succ]
      rw [ih (a + 1) i (by simpa [memRead] using h)]
      congr 1; omega

/-- Reading `n + k` bytes is reading `n`, then `k` from where they end. -/
theorem memRead_add (m : Memory) (a n k : Nat) : memRead m a (n + k) = memRead m a n ++ memRead m (a + n) k := by
  induction n generalizing a with
  | zero => simp [memRead]
  | succ n ih =>
    rw [Nat.succ_add]
    simp only [memRead, List.cons_append, ih (a + 1)]
    congr 3; omega

/-- Memories that agree on a footprint give the same bytes. -/
theorem memRead_congr (m m' : Memory) (a n : Nat) (h : ∀ x, a ≤ x → x < a + n → readByte m x = readByte m' x) :
    memRead m a n = memRead m' a n := by
  induction n generalizing a with
  | zero => rfl
  | succ n ih =>
    simp only [memRead, h a (Nat.le_refl a) (by omega)]
    rw [ih (a + 1) fun x hx hx' => h x (by omega) (by omega)]

/-- `MemWrite` leaves every address outside its footprint alone. -/
theorem readByte_memWrite_of_outside (m : Memory) (a : Nat) (b : List Byte) (x : Nat)
    (h : x < a ∨ a + b.length ≤ x) : readByte (memWrite m a b) x = readByte m x := by
  induction b generalizing m a with
  | nil => rfl
  | cons v b ih =>
    simp only [List.length_cons] at h
    simp only [memWrite]
    rw [ih (writeByte m a v) (a + 1) (by omega), readByte_writeByte_of_ne m a x v (by omega)]

/-- `MemWrite` keeps the canonical form. -/
theorem memoryWf_memWrite (m : Memory) (a : Nat) (b : List Byte) (h : memoryWf m = true) :
    memoryWf (memWrite m a b) = true := by
  induction b generalizing m a with
  | nil => exact h
  | cons v b ih => exact ih (writeByte m a v) (a + 1) (memoryWf_writeByte m a v h)

/-- Byte `i` written by `MemWrite` to canonical memory is read back. -/
theorem readByte_memWrite_inside (m : Memory) (a : Nat) (b : List Byte) (i : Nat) (hm : memoryWf m = true)
    (h : i < b.length) : readByte (memWrite m a b) (a + i) = b[i] := by
  induction b generalizing m a i with
  | nil => simp at h
  | cons v b ih =>
    simp only [memWrite]
    cases i with
    | zero =>
      rw [readByte_memWrite_of_outside (writeByte m a v) (a + 1) b (a + 0) (by omega)]
      simpa using readByte_writeByte_self m a v hm
    | succ i =>
      have := ih (writeByte m a v) (a + 1) i (memoryWf_writeByte m a v hm) (by simpa using h)
      rw [show a + (i + 1) = a + 1 + i by omega, this]
      simp

/-- What `MemWrite` wrote to canonical memory is read back whole. -/
theorem memRead_memWrite (m : Memory) (a : Nat) (b : List Byte) (hm : memoryWf m = true) :
    memRead (memWrite m a b) a b.length = b := by
  apply List.ext_getElem
  · simp
  · intro i hi hb
    rw [memRead_getElem, readByte_memWrite_inside m a b i hm hb]

/-- `MemWrite` of two strings one after the other. -/
theorem memWrite_append (m : Memory) (a : Nat) (b b' : List Byte) :
    memWrite m a (b ++ b') = memWrite (memWrite m a b) (a + b.length) b' := by
  induction b generalizing m a with
  | nil => simp [memWrite]
  | cons v b ih =>
    simp only [List.cons_append, memWrite, List.length_cons, ih]
    congr 1; omega

/-- `MemWrite` lists no address outside its footprint that was not listed before. -/
theorem mem_memWrite (m : Memory) (a : Nat) (b : List Byte) (c : Host.Cell) (h : c ∈ memWrite m a b) :
    (a ≤ c.1 ∧ c.1 < a + b.length) ∨ c ∈ m := by
  induction b generalizing m a with
  | nil => exact .inr h
  | cons v b ih =>
    simp only [List.length_cons]
    rcases ih (writeByte m a v) (a + 1) h with h | h
    · exact .inl (by omega)
    · rcases mem_writeByte m a v c h with h | h
      · exact .inl (by omega)
      · exact .inr h

end Sys2Proof.Machine
end

