-- ==== Sys2Proof/Laws/PerInstr.lean ====
section
/-! SUPPORT. Statements about every command as syntax, one lemma per constructor. -/

namespace Sys2Proof.Laws.Opcode

/-- The number of a command's engine (R81). -/
def engineNibble (i : Instr) : BitVec 4 := if Machine.isSalsa i then 1 else 2

/-- The opcode byte has the engine in its high nibble, 1 for Salsa20 and 2 for SHA-512 (R81), and is not reserved
(R86). -/
def Statement (i : Instr) : Prop :=
  (opcode i).extractLsb' 4 4 = engineNibble i ∧ Machine.reservedOp (opcode i) = false

theorem salsa20Keystream (nonce : List Byte) (counter : Word64) (key : List Byte) :
    Statement (.salsa20Keystream nonce counter key) := by
  simp [Statement, opcode, engineNibble, Machine.isSalsa, Machine.reservedOp]

theorem salsa20Stream (outAddr length : Nat) (nonce key : List Byte) :
    Statement (.salsa20Stream outAddr length nonce key) := by
  simp [Statement, opcode, engineNibble, Machine.isSalsa, Machine.reservedOp]

theorem salsa20Xor (outAddr inAddr length : Nat) (nonce key : List Byte) :
    Statement (.salsa20Xor outAddr inAddr length nonce key) := by
  simp [Statement, opcode, engineNibble, Machine.isSalsa, Machine.reservedOp]

theorem salsa20XorIc (outAddr inAddr length : Nat) (nonce : List Byte) (counter : Word64) (key : List Byte) :
    Statement (.salsa20XorIc outAddr inAddr length nonce counter key) := by
  simp [Statement, opcode, engineNibble, Machine.isSalsa, Machine.reservedOp]

theorem sha512Init (ctx : Nat) : Statement (.sha512Init ctx) := by
  simp [Statement, opcode, engineNibble, Machine.isSalsa, Machine.reservedOp]

theorem sha512Update (ctx inAddr : Nat) : Statement (.sha512Update ctx inAddr) := by
  simp [Statement, opcode, engineNibble, Machine.isSalsa, Machine.reservedOp]

theorem sha512UpdateMulti (ctx inAddr n : Nat) : Statement (.sha512UpdateMulti ctx inAddr n) := by
  simp [Statement, opcode, engineNibble, Machine.isSalsa, Machine.reservedOp]

theorem sha512UpdateLast (ctx inAddr length : Nat) : Statement (.sha512UpdateLast ctx inAddr length) := by
  simp [Statement, opcode, engineNibble, Machine.isSalsa, Machine.reservedOp]

theorem sha512Finish (ctx : Nat) : Statement (.sha512Finish ctx) := by
  simp [Statement, opcode, engineNibble, Machine.isSalsa, Machine.reservedOp]

theorem sha512Hash (inAddr length : Nat) : Statement (.sha512Hash inAddr length) := by
  simp [Statement, opcode, engineNibble, Machine.isSalsa, Machine.reservedOp]

end Sys2Proof.Laws.Opcode
end

