-- ==== Sys2Proof/Laws/Salsa20.lean ====
section
/-! SUPPORT. What the Salsa20 datapath leaves alone, that a block does not depend on what the registers held, and
what the block loop writes. -/

namespace Sys2Proof.Machine

open Sys2Proof.Laws

/-! ### The registers a micro-operation leaves alone -/

@[simp] theorem quarterRoundAt_inp (q : Fin 8) (i0 i1 i2 i3 : Fin 16) (r : SalsaRegs) :
    (quarterRoundAt q i0 i1 i2 i3 r).inp = r.inp := rfl
@[simp] theorem quarterRoundAt_ks (q : Fin 8) (i0 i1 i2 i3 : Fin 16) (r : SalsaRegs) :
    (quarterRoundAt q i0 i1 i2 i3 r).ks = r.ks := rfl
@[simp] theorem doubleRound_inp (r : SalsaRegs) : (doubleRound r).inp = r.inp := by
  simp [doubleRound, rowRound, columnRound]
@[simp] theorem doubleRound_ks (r : SalsaRegs) : (doubleRound r).ks = r.ks := by
  simp [doubleRound, rowRound, columnRound]

/-- A quarter-round's words depend on the words alone. -/
theorem quarterRoundAt_x_congr (q : Fin 8) (i0 i1 i2 i3 : Fin 16) (r r' : SalsaRegs) (h : r.x = r'.x) :
    (quarterRoundAt q i0 i1 i2 i3 r).x = (quarterRoundAt q i0 i1 i2 i3 r').x := by
  simp only [quarterRoundAt, h]

/-- A double-round's words depend on the words alone. -/
theorem doubleRound_x_congr (r r' : SalsaRegs) (h : r.x = r'.x) : (doubleRound r).x = (doubleRound r').x := by
  unfold doubleRound rowRound columnRound
  iterate 8 apply quarterRoundAt_x_congr
  exact h

/-- The rounds keep `IN`, and their words depend on the words alone. -/
theorem rounds_congr (r r' : SalsaRegs) (hx : r.x = r'.x) (hi : r.inp = r'.inp) :
    (rounds r).x = (rounds r').x ∧ (rounds r).inp = (rounds r').inp := by
  unfold rounds
  refine fold_rel 10 _ _ _ _ (fun (_ : Nat) (a b : SalsaRegs) => a.x = b.x ∧ a.inp = b.inp) ⟨hx, hi⟩ ?_
  intro i hi a b h
  exact ⟨doubleRound_x_congr a b h.1, by simpa using h.2⟩

/-- The feed-forward depends on `X` and `IN` alone. -/
theorem feedForward_congr (r r' : SalsaRegs) (hx : r.x = r'.x) (hi : r.inp = r'.inp) :
    (feedForward r).x = (feedForward r').x := by
  unfold feedForward
  refine (fold_rel 16 _ _ _ _ (fun (_ : Nat) (a b : SalsaRegs) => a.x = b.x ∧ a.inp = b.inp) ⟨hx, hi⟩ ?_).1
  intro i hi a b h
  exact ⟨by simp only [h.1, h.2], h.2⟩

/-- The serialised block depends on `X` alone. -/
theorem serialize_congr (r r' : SalsaRegs) (h : r.x = r'.x) : (serialize r).ks = (serialize r').ks := by
  simp only [serialize, h]

/-- A keystream block is the same whatever the registers held (R110, R230). -/
theorem salsa20Block_ks (key nonce : List Byte) (ctr : Word64) (r r' : SalsaRegs) :
    (salsa20Block key nonce ctr r).ks = (salsa20Block key nonce ctr r').ks := by
  have h := rounds_congr (loadMatrix key nonce ctr r) (loadMatrix key nonce ctr r') rfl rfl
  exact serialize_congr _ _ (feedForward_congr _ _ h.1 h.2)

/-- A keystream block in `KS` is the value-level block. -/
theorem salsa20Block_toList (key nonce : List Byte) (ctr : Word64) (r : SalsaRegs) :
    (salsa20Block key nonce ctr r).ks.toList = salsa20BlockV key nonce ctr := by
  rw [salsa20BlockV, salsa20Block_ks key nonce ctr r SalsaRegs.reset]

@[simp] theorem salsa20BlockV_length (key nonce : List Byte) (ctr : Word64) :
    (salsa20BlockV key nonce ctr).length = 64 := by
  simp [salsa20BlockV]

/-! ### The block loop -/

/-- Byte `p` of the output of the block loop. -/
def streamByte (nonce : List Byte) (c0 : Word64) (key : List Byte) (inAddr : Option Nat) (m : Memory) (p : Nat) :
    Byte :=
  xor8 (inputByte inAddr m p) (byteAt (salsa20BlockV key nonce (blockCounter c0 (p / 64))) (p % 64))

/-- The first `q` bytes of the output of the block loop. -/
def streamBytes (nonce : List Byte) (c0 : Word64) (key : List Byte) (inAddr : Option Nat) (m : Memory) (q : Nat) :
    List Byte :=
  (List.range q).map (streamByte nonce c0 key inAddr m)

@[simp] theorem streamBytes_length (nonce : List Byte) (c0 : Word64) (key : List Byte) (inAddr : Option Nat)
    (m : Memory) (q : Nat) : (streamBytes nonce c0 key inAddr m q).length = q := by
  simp [streamBytes]

/-- One more byte of output. -/
theorem memWrite_streamBytes_succ (nonce : List Byte) (c0 : Word64) (key : List Byte) (inAddr : Option Nat)
    (m : Memory) (o q : Nat) :
    memWrite m o (streamBytes nonce c0 key inAddr m (q + 1)) =
      writeByte (memWrite m o (streamBytes nonce c0 key inAddr m q)) (o + q)
        (streamByte nonce c0 key inAddr m q) := by
  rw [streamBytes, List.range_succ, List.map_append, memWrite_append]
  simp [memWrite, streamBytes]

/-- The input bytes still to be read are not changed by the output bytes already written. -/
abbrev InputKept (outAddr : Nat) (inAddr : Option Nat) (length : Nat) (m : Memory) : Prop :=
  ∀ b : List Byte, b.length < length → inputByte inAddr (memWrite m outAddr b) b.length = inputByte inAddr m b.length

/-- A virtual input is never changed. -/
theorem inputKept_none (outAddr length : Nat) (m : Memory) : InputKept outAddr none length m :=
  fun _ _ => rfl

/-- The aliasing rule keeps the input (R61). -/
theorem inputKept_some (outAddr inAddr length : Nat) (m : Memory) (h : aliasingOk inAddr outAddr length = true) :
    InputKept outAddr (some inAddr) length m := by
  intro b hb
  simp only [aliasingOk, Bool.or_eq_true, decide_eq_true_eq] at h
  exact readByte_memWrite_of_outside m outAddr b (inAddr + b.length) (by omega)

/-- The byte loop of one block, on registers whose `KS` holds its keystream. -/
def xorBytes (outAddr : Nat) (inAddr : Option Nat) (length i : Nat) (e : SalsaEngine) : SalsaEngine :=
  Nat.fold (usedBytes length i)
    (fun j hj e => xorByte outAddr inAddr i ⟨j, Nat.lt_of_lt_of_le hj (Nat.min_le_left _ _)⟩ e) e

theorem xorBlock_eq (outAddr : Nat) (inAddr : Option Nat) (length : Nat) (nonce : List Byte) (c0 : Word64)
    (key : List Byte) (i : Nat) (e : SalsaEngine) :
    xorBlock outAddr inAddr length nonce c0 key i e =
      xorBytes outAddr inAddr length i
        { e with regs := salsa20Block key nonce (blockCounter c0 i) { e.regs with bi := i } } := by
  simp only [xorBlock, xorBytes]

/-- The byte loop writes the bytes of block `i` after those of the blocks before it. -/
theorem xorBytes_mem (outAddr : Nat) (inAddr : Option Nat) (length : Nat) (nonce : List Byte) (c0 : Word64)
    (key : List Byte) (i : Nat) (m : Memory) (hk : InputKept outAddr inAddr length m) (e : SalsaEngine)
    (hr : e.regs.ks.toList = salsa20BlockV key nonce (blockCounter c0 i))
    (he : e.mem = memWrite m outAddr (streamBytes nonce c0 key inAddr m (64 * i))) :
    (xorBytes outAddr inAddr length i e).mem =
      memWrite m outAddr (streamBytes nonce c0 key inAddr m (64 * i + usedBytes length i)) := by
  unfold xorBytes
  refine (fold_inv (usedBytes length i) _ _
    (fun j (x : SalsaEngine) =>
      x.regs.ks = e.regs.ks ∧ x.mem = memWrite m outAddr (streamBytes nonce c0 key inAddr m (64 * i + j)))
    ⟨rfl, by simpa using he⟩ ?_).2
  intro j hj x hx
  have hj64 : j < 64 := Nat.lt_of_lt_of_le hj (Nat.min_le_left _ _)
  have hjl : 64 * i + j < length := by
    have := Nat.lt_of_lt_of_le hj (Nat.min_le_right _ _); omega
  refine ⟨hx.1, ?_⟩
  rw [← Nat.add_assoc, memWrite_streamBytes_succ]
  simp only [xorByte]
  have hin := hk (streamBytes nonce c0 key inAddr m (64 * i + j)) (by simpa using hjl)
  rw [streamBytes_length] at hin
  have hd : (64 * i + j) / 64 = i := by omega
  have hm : (64 * i + j) % 64 = j := by omega
  have hks : x.regs.ks[j] = byteAt (salsa20BlockV key nonce (blockCounter c0 i)) j := by
    rw [← hr, ← hx.1]
    simp [byteAt, List.getD, hj64]
  have hout : streamByte nonce c0 key inAddr m (64 * i + j) = xor8 (inputByte inAddr m (64 * i + j)) x.regs.ks[j] := by
    rw [streamByte, hd, hm, hks]
  rw [hout, hx.2, hin]
  rfl

/-- The bytes of block `i`, given that the bytes of the blocks before it are written. -/
theorem xorBlock_mem (outAddr : Nat) (inAddr : Option Nat) (length : Nat) (nonce : List Byte) (c0 : Word64)
    (key : List Byte) (i : Nat) (m : Memory) (hk : InputKept outAddr inAddr length m) (e : SalsaEngine)
    (he : e.mem = memWrite m outAddr (streamBytes nonce c0 key inAddr m (64 * i))) :
    (xorBlock outAddr inAddr length nonce c0 key i e).mem =
      memWrite m outAddr (streamBytes nonce c0 key inAddr m (64 * i + usedBytes length i)) := by
  rw [xorBlock_eq]
  exact xorBytes_mem outAddr inAddr length nonce c0 key i m hk _ (salsa20Block_toList _ _ _ _) he

/-- What the block loop writes, and nothing else (R123, R124). -/
theorem xorLoop_mem (outAddr : Nat) (inAddr : Option Nat) (length : Nat) (nonce : List Byte) (c0 : Word64)
    (key : List Byte) (e : SalsaEngine) (hk : InputKept outAddr inAddr length e.mem) :
    (xorLoop outAddr inAddr length nonce c0 key e).mem =
      memWrite e.mem outAddr (streamBytes nonce c0 key inAddr e.mem length) := by
  unfold xorLoop
  have h := fold_inv (salsaBlocks length)
    (fun i _ x => xorBlock outAddr inAddr length nonce c0 key i x) e
    (fun i (x : SalsaEngine) =>
      x.mem = memWrite e.mem outAddr (streamBytes nonce c0 key inAddr e.mem (min (64 * i) length)))
    (by simp [streamBytes, memWrite]) (fun i hi x hx => by
      unfold salsaBlocks at hi
      have hl : 64 * i < length := by omega
      rw [Nat.min_eq_left (Nat.le_of_lt hl)] at hx
      rw [xorBlock_mem outAddr inAddr length nonce c0 key i e.mem hk x hx]
      congr 2
      unfold usedBytes; omega)
  rw [h]
  congr 2
  unfold salsaBlocks; omega

/-- The output bytes are the value-level function of the input bytes (R124). -/
theorem streamBytes_some (nonce : List Byte) (c0 : Word64) (key : List Byte) (a : Nat) (m : Memory) (n : Nat) :
    streamBytes nonce c0 key (some a) m n = xorIcV (memRead m a n) nonce c0 key := by
  apply List.ext_getElem
  · simp [xorIcV]
  · intro i hi hi'
    simp [streamBytes, streamByte, xorIcV, inputByte, memRead_getElem]

/-- The output bytes on the virtual input are the value-level function of zeros (R127). -/
theorem streamBytes_none (nonce : List Byte) (c0 : Word64) (key : List Byte) (m : Memory) (n : Nat) :
    streamBytes nonce c0 key none m n = xorIcV (zeros n) nonce c0 key := by
  apply List.ext_getElem
  · simp [xorIcV, zeros]
  · intro i hi hi'
    simp [streamBytes, streamByte, xorIcV, inputByte, zeros]

@[simp] theorem xorIcV_length (p nonce : List Byte) (c0 : Word64) (key : List Byte) :
    (xorIcV p nonce c0 key).length = p.length := by
  simp [xorIcV]

/-- Effect of an XOR command whose aliasing check holds (R125). -/
theorem xorEffect_some (outAddr inAddr length : Nat) (nonce : List Byte) (c0 : Word64) (key : List Byte) (s : State)
    (h : aliasingOk inAddr outAddr length = true) :
    xorEffect outAddr (some inAddr) length nonce c0 key s =
      (retireSalsa { s with mem := memWrite s.mem outAddr (xorIcV (memRead s.mem inAddr length) nonce c0 key) }, []) := by
  unfold xorEffect
  simp only
  rw [xorLoop_mem _ _ _ _ _ _ _ (inputKept_some outAddr inAddr length s.mem h), streamBytes_some]
  rfl

/-- Effect of `SALSA20_STREAM` (R127). -/
theorem xorEffect_none (outAddr length : Nat) (nonce : List Byte) (c0 : Word64) (key : List Byte) (s : State) :
    xorEffect outAddr none length nonce c0 key s =
      (retireSalsa { s with mem := memWrite s.mem outAddr (xorIcV (zeros length) nonce c0 key) }, []) := by
  unfold xorEffect
  simp only
  rw [xorLoop_mem _ _ _ _ _ _ _ (inputKept_none outAddr length s.mem), streamBytes_none]
  rfl

end Sys2Proof.Machine
end

