-- ==== Sys2Proof/Laws/Sha512.lean ====
section
/-! SUPPORT. What the SHA-512 datapath leaves alone, that a compression does not depend on what the working
registers held, and what the command bodies do to a context. -/

namespace Sys2Proof.Machine

open Sys2Proof.Laws

/-! ### The schedule -/

/-- The load leaves everything but `W` alone. -/
theorem schedLoad_padbuf (block : List Byte) (r : ShaRegs) : (schedLoad block r).padbuf = r.padbuf := by
  unfold schedLoad
  exact fold_inv 16 _ r (fun (_ : Nat) (x : ShaRegs) => x.padbuf = r.padbuf) rfl fun _ _ _ h => h

/-- The expansion leaves everything but `W` alone. -/
theorem schedExpand_padbuf (r : ShaRegs) : (schedExpand r).padbuf = r.padbuf := by
  unfold schedExpand
  exact fold_inv 64 _ r (fun (_ : Nat) (x : ShaRegs) => x.padbuf = r.padbuf) rfl fun _ _ _ h => h

/-- The first sixteen words after the load depend on the block alone. -/
theorem schedLoad_w_congr (block : List Byte) (r r' : ShaRegs) (t : Nat) (ht : t < 16) :
    (schedLoad block r).w[t] = (schedLoad block r').w[t] := by
  unfold schedLoad
  refine fold_rel 16 _ _ r r' (fun (k : Nat) (a b : ShaRegs) => ∀ (t : Nat) (_ : t < k) (_ : t < 80), a.w[t] = b.w[t])
    (fun t h _ => absurd h (Nat.not_lt_zero t)) ?_ t ht (by omega)
  intro i hi a b h t htk ht80
  by_cases hti : i = t
  · subst hti; simp
  · simp only [Vector.getElem_set, hti, if_false]
    exact h t (by omega) ht80

/-- Schedules that agree on the first sixteen words agree after the expansion. -/
theorem schedExpand_w_congr (r r' : ShaRegs) (h : ∀ (t : Nat) (_ : t < 16), r.w[t] = r'.w[t]) :
    (schedExpand r).w = (schedExpand r').w := by
  have key := fold_rel 64
    (fun j hj (r : ShaRegs) => { r with w := r.w.set (j + 16) (schedWord r.w j hj) })
    (fun j hj (r : ShaRegs) => { r with w := r.w.set (j + 16) (schedWord r.w j hj) }) r r'
    (fun (k : Nat) (a b : ShaRegs) => ∀ (t : Nat) (_ : t < k + 16) (_ : t < 80), a.w[t] = b.w[t])
    (fun t ht _ => h t (by omega)) (by
      intro i hi a b hab t htk ht80
      by_cases hti : i + 16 = t
      · subst hti
        simp only [Vector.getElem_set, if_true, schedWord]
        rw [hab (i + 14) (by omega) (by omega), hab (i + 9) (by omega) (by omega), hab (i + 1) (by omega) (by omega),
          hab i (by omega) (by omega)]
      · simp only [Vector.getElem_set, hti, if_false]
        exact hab t (by omega) ht80)
  exact Vector.ext fun t ht => key t ht ht

/-! ### The steps -/

/-- Working variables and schedule agree. -/
abbrev VarsAgree (r r' : ShaRegs) : Prop :=
  r.a = r'.a ∧ r.b = r'.b ∧ r.c = r'.c ∧ r.d = r'.d ∧ r.e = r'.e ∧ r.f = r'.f ∧ r.g = r'.g ∧ r.h = r'.h ∧ r.w = r'.w

/-- A step keeps agreement. -/
theorem shaStep_congr (t : Fin 80) (r r' : ShaRegs) (h : VarsAgree r r') : VarsAgree (shaStep t r) (shaStep t r') := by
  obtain ⟨ha, hb, hc, hd, he, hf, hg, hh, hw⟩ := h
  simp only [VarsAgree, shaStep, ha, hb, hc, hd, he, hf, hg, hh, hw, and_self]

/-- The eighty steps keep agreement. -/
theorem shaSteps_congr (r r' : ShaRegs) (h : VarsAgree r r') : VarsAgree (shaSteps r) (shaSteps r') := by
  unfold shaSteps
  exact fold_rel 80 _ _ _ _ (fun (_ : Nat) (a b : ShaRegs) => VarsAgree a b) h fun i hi a b hab =>
    shaStep_congr ⟨i, hi⟩ a b hab

/-- The steps leave `PADBUF` alone. -/
theorem shaSteps_padbuf (r : ShaRegs) : (shaSteps r).padbuf = r.padbuf := by
  unfold shaSteps
  exact fold_inv 80 _ _ (fun (_ : Nat) (x : ShaRegs) => x.padbuf = r.padbuf) rfl fun _ _ _ h => h

/-- A compression's working variables do not depend on what the registers held. -/
theorem compressRegs_congr (block : List Byte) (hash : Vector Word64 8) (r r' : ShaRegs) :
    VarsAgree (compressRegs block hash r) (compressRegs block hash r') := by
  refine shaSteps_congr _ _ ⟨rfl, rfl, rfl, rfl, rfl, rfl, rfl, rfl, ?_⟩
  exact schedExpand_w_congr _ _ fun t ht => schedLoad_w_congr block r r' t ht

/-- A compression leaves `PADBUF` alone (R140). -/
theorem compressRegs_padbuf (block : List Byte) (hash : Vector Word64 8) (r : ShaRegs) :
    (compressRegs block hash r).padbuf = r.padbuf := by
  rw [compressRegs, shaSteps_padbuf, loadVars, schedExpand_padbuf, schedLoad_padbuf]

/-- The add-back depends on the working variables alone. -/
theorem addBack_congr (r r' : ShaRegs) (hash : Vector Word64 8) (h : VarsAgree r r') :
    addBack r hash = addBack r' hash := by
  obtain ⟨ha, hb, hc, hd, he, hf, hg, hh, -⟩ := h
  simp only [addBack, ha, hb, hc, hd, he, hf, hg, hh]

/-- What `COMPRESS` does to the context (R155). -/
theorem compress_ctx (block : List Byte) (e : ShaEngine) :
    (compress block e).ctx = { e.ctx with h := compressV e.ctx.h block } := by
  simp only [compress, compressV, addBack_congr _ _ e.ctx.h (compressRegs_congr block e.ctx.h e.regs ShaRegs.reset)]

@[simp] theorem compress_padbuf (block : List Byte) (e : ShaEngine) :
    (compress block e).regs.padbuf = e.regs.padbuf := by
  simp only [compress, compressRegs_padbuf]

/-! ### Folding blocks -/

theorem absorbV_zero (hash : Vector Word64 8) (b : List Byte) : absorbV hash b 0 = hash := by
  simp [absorbV]

theorem absorbV_succ (hash : Vector Word64 8) (b : List Byte) (n : Nat) :
    absorbV hash b (n + 1) = compressV (absorbV hash b n) (blockAt b (128 * n)) := by
  simp [absorbV]

/-- Only the first `n` blocks of a string matter to `absorbV`. -/
theorem absorbV_congr (hash : Vector Word64 8) (b b' : List Byte) (n : Nat)
    (h : ∀ j, j < n → blockAt b (128 * j) = blockAt b' (128 * j)) : absorbV hash b n = absorbV hash b' n := by
  induction n with
  | zero => rw [absorbV_zero, absorbV_zero]
  | succ n ih =>
    rw [absorbV_succ, absorbV_succ, ih fun j hj => h j (Nat.lt_succ_of_lt hj), h n (Nat.lt_succ_self n)]

/-- A block of what memory holds. -/
theorem blockAt_memRead (m : Memory) (a n j : Nat) (h : 128 * j + 128 ≤ n) :
    blockAt (memRead m a n) (128 * j) = memRead m (a + 128 * j) 128 := by
  rw [show n = 128 * j + (128 + (n - (128 * j + 128))) by omega, memRead_add, memRead_add]
  simp [blockAt]

/-- Absorbing memory blocks in two runs is absorbing them in one (R173). -/
theorem absorbV_memRead_add (hash : Vector Word64 8) (m : Memory) (a n k : Nat) :
    absorbV (absorbV hash (memRead m a (128 * n)) n) (memRead m (a + 128 * n) (128 * k)) k =
      absorbV hash (memRead m a (128 * (n + k))) (n + k) := by
  have cut : ∀ (hash : Vector Word64 8) (a q j : Nat), j ≤ q →
      absorbV hash (memRead m a (128 * q)) j = absorbV hash (memRead m a (128 * j)) j := fun hash a q j hj =>
    absorbV_congr _ _ _ j fun i hi => by
      rw [blockAt_memRead m a _ i (by omega), blockAt_memRead m a _ i (by omega)]
  induction k with
  | zero => rw [absorbV_zero, Nat.add_zero]
  | succ k ih =>
    have hb : blockAt (memRead m (a + 128 * n) (128 * (k + 1))) (128 * k) =
        blockAt (memRead m a (128 * (n + (k + 1)))) (128 * (n + k)) := by
      rw [blockAt_memRead _ _ _ _ (by omega), blockAt_memRead _ _ _ _ (by omega),
        show a + 128 * n + 128 * k = a + 128 * (n + k) by omega]
    rw [absorbV_succ, cut _ _ (k + 1) k (by omega), ih, hb, ← cut hash a (n + (k + 1)) (n + k) (by omega),
      ← absorbV_succ, Nat.add_assoc]

/-- Absorbing memory blocks: hash words folded over them, `LEN` advanced by 1024 each, all else kept (R172, R173). -/
theorem absorbBlocks_ctx (m : Memory) (a n : Nat) (e : ShaEngine) :
    (absorbBlocks m a n e).ctx =
      { e.ctx with
        h := absorbV e.ctx.h (memRead m a (128 * n)) n, len := e.ctx.len + BitVec.ofNat 128 (1024 * n) } := by
  induction n with
  | zero => simp [absorbBlocks, absorbV_zero]
  | succ n ih =>
    have hstep : absorbBlocks m a (n + 1) e =
        absorb (memRead m (a + 128 * n) 128)
          { absorbBlocks m a n e with regs := { (absorbBlocks m a n e).regs with bj := n } } := by
      simp only [absorbBlocks, Nat.fold_succ]
    have hblock : blockAt (memRead m a (128 * (n + 1))) (128 * n) = memRead m (a + 128 * n) 128 :=
      blockAt_memRead m a (128 * (n + 1)) n (by omega)
    have hfold : absorbV e.ctx.h (memRead m a (128 * (n + 1))) n = absorbV e.ctx.h (memRead m a (128 * n)) n :=
      absorbV_congr _ _ _ n fun j hj => by
        rw [blockAt_memRead m a _ j (by omega), blockAt_memRead m a _ j (by omega)]
    have hlen : e.ctx.len + BitVec.ofNat 128 (1024 * n) + 1024 = e.ctx.len + BitVec.ofNat 128 (1024 * (n + 1)) := by
      apply BitVec.eq_of_toNat_eq
      have h1024 : (1024 : Word128).toNat = 1024 := rfl
      simp only [BitVec.toNat_add, BitVec.toNat_ofNat, h1024]
      omega
    rw [hstep]
    simp only [absorb, compress_ctx, ih, absorbV_succ, add128, hblock, hfold, hlen]

/-- The body of `SHA512_UPDATE_MULTI` on the context (R173). -/
theorem updateMultiBody_ctx (m : Memory) (a n : Nat) (e : ShaEngine) :
    (updateMultiBody m a n e).ctx =
      { e.ctx with
        phase := .absorbing, h := absorbV e.ctx.h (memRead m a (128 * n)) n,
        len := e.ctx.len + BitVec.ofNat 128 (1024 * n) } := by
  simp only [updateMultiBody, absorbBlocks_ctx]

/-- Compressing `PADBUF`: the hash words folded over its blocks, all else of the context kept (R179). -/
theorem compressPadbuf_ctx (e : ShaEngine) :
    (compressPadbuf e).ctx =
      { e.ctx with h := absorbV e.ctx.h e.regs.padbuf (e.regs.padbuf.length / 128) } := by
  unfold compressPadbuf
  refine (fold_inv (e.regs.padbuf.length / 128) _ e
    (fun (k : Nat) (x : ShaEngine) =>
      x.regs.padbuf = e.regs.padbuf ∧ x.ctx = { e.ctx with h := absorbV e.ctx.h e.regs.padbuf k })
    ⟨rfl, by rw [absorbV_zero]⟩ ?_).2
  intro k hk x hx
  refine ⟨by simpa using hx.1, ?_⟩
  simp only [compress_ctx, hx.2, absorbV_succ, hx.1]

/-- The body of `SHA512_UPDATE_LAST` on the context (R177, R178). -/
theorem updateLastBody_ctx (m : Memory) (a n : Nat) (e : ShaEngine) :
    (updateLastBody m a n e).ctx =
      { phase := .padded,
        h := absorbV e.ctx.h (pad (memRead m a n) e.ctx.len) ((pad (memRead m a n) e.ctx.len).length / 128),
        len := e.ctx.len + BitVec.ofNat 128 (8 * n), buf := [] } := by
  simp only [updateLastBody, compressPadbuf_ctx, add128]

/-- The digest `SHA512_HASH` computes is the value-level digest of what memory holds (R183). -/
theorem digest_hashEngine (m : Memory) (a n : Nat) (r : ShaRegs) :
    digest (hashEngine m a n r).ctx.h = sha512V (memRead m a n) := by
  simp only [hashEngine, updateLastBody_ctx, updateMultiBody_ctx, initBody, sha512V, memRead_length]
  have hd : (memRead m a n).drop (128 * (n / 128)) = memRead m (a + 128 * (n / 128)) (n - 128 * (n / 128)) := by
    have hn : n = 128 * (n / 128) + (n - 128 * (n / 128)) := by omega
    conv_lhs => rw [hn, memRead_add]
    rw [List.drop_append_of_le_length (by simp; omega)]
    have : 128 * ((128 * (n / 128) + (n - 128 * (n / 128))) / 128) = (memRead m a (128 * (n / 128))).length := by
      rw [memRead_length]; omega
    rw [this, List.drop_length, List.nil_append]
  have hb : absorbV iv (memRead m a (128 * (n / 128))) (n / 128) = absorbV iv (memRead m a n) (n / 128) :=
    absorbV_congr _ _ _ _ fun j hj => by
      rw [blockAt_memRead m a _ j (by omega), blockAt_memRead m a _ j (by omega)]
  have hz : (0 : Word128) + BitVec.ofNat 128 (1024 * (n / 128)) = BitVec.ofNat 128 (1024 * (n / 128)) :=
    BitVec.zero_add _
  rw [hd, hb, hz]

end Sys2Proof.Machine
end

