-- ==== Sys2Proof/Tests/Slice0.lean ====
section
/-! SUPPORT. The model's own tests: well-formedness, decoding, one step of each command against the vectors of
95_test_vectors, and one witness for each obligation that has hypotheses. -/

namespace Sys2Proof.Tests

open Sys2Proof Sys2Proof.Machine

/-! ### Helpers -/

/-- The `len` bytes of a number, most significant first: how 95_test_vectors prints byte strings. -/
def bytesOf (len v : Nat) : List Byte := (List.range len).map fun i => BitVec.ofNat 8 (v / 256 ^ (len - 1 - i))

/-- Key `K1` = 00 01 .. 1f (95_test_vectors section 4). -/
def key1 : List Byte := (List.range 32).map (BitVec.ofNat 8 ·)

/-- Nonce `N1` = f0 f1 .. f7 (95_test_vectors section 4). -/
def nonce1 : List Byte := bytesOf 8 0xf0f1f2f3f4f5f6f7

/-- The all-zero key and nonce. -/
def key0 : List Byte := List.replicate 32 0
def nonce0 : List Byte := List.replicate 8 0

/-- Reset, with the bytes `b` at address `a`. -/
def withMem (a : Nat) (b : List Byte) : State := { State.reset with mem := memWrite [] a b }

/-- Context 0 as given, context 1 as after reset. -/
def withCtx (phase : Phase) (h : Vector Word64 8) (len : Word128) (s : State) : State :=
  { s with ctxs := [{ phase := phase, h := h, len := len, buf := [] }, Context.reset] }

/-- Context 0 in a phase, its other registers as after `SHA512_INIT`. -/
def inPhase (phase : Phase) : State := withCtx phase iv 0 State.reset

/-- Something about the next state, where there is one. -/
def after {α : Type} (o : Host.Outcome State Fault Refusal) (f : State → α) : Option α :=
  match o with
  | .next s => some (f s)
  | .fault _ => none
  | .refused _ => none

/-- The newest response, as status and value. -/
def newest (s : State) : Option (Byte × List Byte) := s.rspLog.getLast?.map fun r => (r.status, r.value)

/-- `H` of 95_test_vectors section 6.3 after `SHA512_UPDATE_MULTI`, and after `SHA512_UPDATE_LAST`. -/
def hashMid : Vector Word64 8 :=
  #v[0x8e03953cd57cd687, 0x9321270afa70c582, 0x7bb5b69be59a8f01, 0x30147e94f2aedf7b, 0xdc01c56c92343ca8,
    0xbd837bb7f0208f5a, 0x23e155694516b6f1, 0x47099d491a30b151]
def hashEnd : Vector Word64 8 :=
  #v[0x986058e9895e2c2a, 0xb8f9e8cbdf801db1, 0x2a44842a56a91d5a, 0x4e87b1fc98b29372, 0x2c4664142e42c3c5,
    0x51ff898646268cd9, 0x2b84ed230b8c94be, 0xd7798d4f27cd7465]

/-! ### Well-formedness: a well-formed command, and an ill-formed one for each check (30_encoding R82, R85) -/

/-- The parameters of 95_test_vectors section 7 with a `LENW` of 8. -/
def params8 : Params := { nctx := 2, aw := some 16, lenw := some 8 }

theorem test_wf_accepts :
    (Instr.salsa20XorIc 0xffff 0 255 nonce1 5 key1).wellFormed params8 = true ∧
    (Instr.sha512UpdateLast 1 0xffff 127).wellFormed params8 = true := by decide
theorem test_wf_key_of_31_bytes : (Instr.salsa20Keystream nonce1 0 (key1.take 31)).wellFormed params8 = false := by
  decide
theorem test_wf_nonce_of_7_bytes : (Instr.salsa20Xor 0 0 0 (nonce1.take 7) key1).wellFormed params8 = false := by
  decide
theorem test_wf_out_addr_too_wide : (Instr.salsa20Stream 0x10000 1 nonce1 key1).wellFormed params8 = false := by
  decide
theorem test_wf_in_addr_too_wide : (Instr.salsa20Xor 0 0x10000 1 nonce1 key1).wellFormed params8 = false := by
  decide
theorem test_wf_length_too_wide : (Instr.sha512Hash 0 256).wellFormed params8 = false := by decide
theorem test_wf_n_too_wide : (Instr.sha512UpdateMulti 0 0 256).wellFormed params8 = false := by decide
theorem test_wf_no_such_context :
    (Instr.sha512Init 2).wellFormed params8 = false ∧ (Instr.sha512Update 2 0).wellFormed params8 = false ∧
    (Instr.sha512Finish 2).wellFormed params8 = false := by decide
theorem test_wf_tail_of_128_bytes : (Instr.sha512UpdateLast 0 0 128).wellFormed params8 = false := by decide

/-! ### Decoding: opcode bytes written out bit by bit, bits 7..4 the engine, 3..0 the function (30_encoding R81) -/

/-- A record with every field different, to see which fields a command reads. -/
def fullRecord (op : Byte) : Record :=
  { op := op, ctx := 1, key := key1, nonce := nonce1, counter := 2, length := 3, n := 4, inAddr := 5, outAddr := 6 }

theorem test_decode_keystream : decode (fullRecord 0b00010000) = .ok (.salsa20Keystream nonce1 2 key1) := rfl
theorem test_decode_stream : decode (fullRecord 0b00010001) = .ok (.salsa20Stream 6 3 nonce1 key1) := rfl
theorem test_decode_xor : decode (fullRecord 0b00010010) = .ok (.salsa20Xor 6 5 3 nonce1 key1) := rfl
theorem test_decode_xor_ic : decode (fullRecord 0b00010011) = .ok (.salsa20XorIc 6 5 3 nonce1 2 key1) := rfl
theorem test_decode_init : decode (fullRecord 0b00100000) = .ok (.sha512Init 1) := rfl
theorem test_decode_update : decode (fullRecord 0b00100001) = .ok (.sha512Update 1 5) := rfl
theorem test_decode_update_multi : decode (fullRecord 0b00100010) = .ok (.sha512UpdateMulti 1 5 4) := rfl
theorem test_decode_update_last : decode (fullRecord 0b00100011) = .ok (.sha512UpdateLast 1 5 3) := rfl
theorem test_decode_finish : decode (fullRecord 0b00100100) = .ok (.sha512Finish 1) := rfl
theorem test_decode_hash : decode (fullRecord 0b00100101) = .ok (.sha512Hash 5 3) := rfl

/-- The edges of the reserved ranges of R86. -/
theorem test_decode_reserved :
    ([0x00, 0x0f, 0x14, 0x1f, 0x26, 0xff].map fun op => decode (fullRecord op)) =
      [0x00, 0x0f, 0x14, 0x1f, 0x26, 0xff].map fun op => .error (.reservedOpcode op) := rfl

/-- The table's word is run by the very next step from reset (95_test_vectors section 7, row 8: the empty message). -/
theorem test_fetch_word_hash :
    after (step (State.reset.withFetchWord 8 0x25)) newest =
      some (some (0x00, bytesOf 64 0xcf83e1357eefb8bdf1542850d66d8007d620e4050b5715dc83f4a921d36ce9ce47d0d13c5d85f2b0ff8318d2877eec2f63b931bd47417a81a538327af927da3e)) := by
  decide +kernel

/-- A reserved opcode (95_test_vectors section 7, row 2). -/
theorem test_fetch_word_reserved :
    after (step (State.reset.withFetchWord 8 0x14)) (fun s => (newest s, s.faults)) =
      some (some (0x01, []), [.illegalCommand]) := by
  decide

/-! ### Salsa20 commands -/

/-- The known answer of R130 (95_test_vectors 3.6; section 7, row 9). -/
theorem test_keystream_known_answer :
    after (exec (.salsa20Keystream nonce0 0 key0) State.reset) newest =
      some (some (0x00, bytesOf 64 0x9a97f65b9b4c721b960a672145fca8d4e32e67f9111ea979ce9c4826806aeee63de9c0da2bd7f91ebcb2639bf989c6251b29bf38d39a9bdce7c55f4b2ac12a39)) := by
  decide +kernel

/-- Key and nonce bytes all different, counter 1 (95_test_vectors 4.1). -/
theorem test_keystream_counter_one :
    after (exec (.salsa20Keystream nonce1 1 key1) State.reset) newest =
      some (some (0x00, bytesOf 64 0x13eed2334a943c5eb12aa99510c3940fc949fefd7d460b691d8373f78443d1ada38a0b05eb7a384a4c3bdff3b08889d1f1fe4198a87a7d7b394cd80aea74c728)) := by
  decide +kernel

/-- Two blocks, the second cut to one byte (95_test_vectors 4.2, L = 65); the bytes on either side stay. -/
theorem test_stream_65_bytes :
    after (exec (.salsa20Stream 0x0100 65 nonce1 key1) State.reset) (fun s => memRead s.mem 0x00ff 67) =
      some (0 :: bytesOf 65 0xafe6eec4bc0941ed6824b0c018b214c4350cefddd3be60368fe6ebb579f9696e41497ade6d09e448e2701162ae4995fc31bcb70f98c19bd2ee54ad4f1fb85d8d13 ++ [0]) := by
  decide +kernel

/-- Size is checked before fit, and the fit is exact (95_test_vectors section 7, rows 22 and 23). -/
theorem test_stream_checks :
    after (exec (.salsa20Stream 0xfff0 64 (nonce1.take 7) key1) State.reset) newest = some (some (0x02, [])) ∧
    after (exec (.salsa20Stream 0xfff0 17 nonce1 key1) State.reset) newest = some (some (0x04, [])) := by
  decide

/-- Seventy bytes of text (95_test_vectors 4.3): the last eight bytes of the first block and the six of the second. -/
theorem test_xor_seventy_bytes :
    after
      (exec (.salsa20Xor 0x0200 0x0100 70 nonce0 key0)
        (withMem 0x0100 (bytesOf 70 0x53616c7361323020636f72652074657374206d6573736167652c20736576656e7479206279746573206c6f6e672c20666f722074686520696e2d706c6163652070726f677261)))
      (fun s => (memRead s.mem 0x0200 70, newest s)) =
      some (bytesOf 70 0xc9f69a28fa7e423bf56515446588cda7970e0a9c626dc81eabb06855e51c8b884990e0b852a39c6d9cde0cf59ea5e643745b9f4cbbffbbb589e82f274ba24f19db98e570160c, some (0x00, [])) := by
  decide +kernel

/-- Partial overlap is refused, ranges that touch are not, an empty transfer never is (95_test_vectors section 7,
rows 26 and 28). -/
theorem test_xor_overlap :
    after (exec (.salsa20Xor 0x0101 0x0100 70 nonce0 key0) State.reset) newest = some (some (0x04, [])) ∧
    after (exec (.salsa20Xor 0x0101 0x0100 0 nonce0 key0) State.reset) newest = some (some (0x00, [])) := by
  decide

/-- In place, the counter wrapping to 0 for the second block (95_test_vectors 4.5, the first 66 bytes). -/
theorem test_xor_ic_counter_wraps :
    after
      (exec (.salsa20XorIc 0 0 66 nonce1 0xffffffffffffffff key1)
        (withMem 0 ((List.range 66).map fun i => BitVec.ofNat 8 (7 * i + 3))))
      (fun s => memRead s.mem 0 66) =
      some (bytesOf 66 0x283577e0ee647adb6b0cee7560066daf28e707ebfae9ad765cbedfdd393b2f55a3ae1e4f48d1e2bfb1a14626a548c6d67a48f9962da78ee55b1ed12de4be1fea6c2c) := by
  decide +kernel

/-- A refused command changes nothing but the response and the recorded fault (60_exceptions R210). -/
theorem test_xor_ic_refused :
    after (exec (.salsa20XorIc 0 0 1 nonce1 0 (key1.take 31)) State.reset) id =
      some { State.reset with rspLog := [{ status := 0x02, value := [] }], faults := [.sizeMismatch] } := by
  decide

/-! ### SHA-512 commands -/

/-- Recovery of a finalized context (95_test_vectors section 7, row 20). -/
theorem test_init_recovers :
    after (exec (.sha512Init 0) (withCtx .finalized hashEnd 0x640 State.reset)) (fun s => (ctxAt s 0, newest s)) =
      some ({ phase := .fresh, h := iv, len := 0, buf := [] }, some (0x00, [])) := by
  decide

/-- No such context (95_test_vectors section 7, row 5). -/
theorem test_init_no_such_context :
    after (exec (.sha512Init 2) State.reset) (fun s => (newest s, s.ctxs)) =
      some (some (0x01, []), State.reset.ctxs) := by
  decide

/-- The bytes 00 01 .. 7f (95_test_vectors 6.3, second row). -/
theorem test_update_one_block :
    after (exec (.sha512Update 0 0x1000) (withCtx .fresh iv 0 (withMem 0x1000 ((List.range 128).map (BitVec.ofNat 8 ·)))))
      (fun s => ctxAt s 0) =
      some { phase := .absorbing, h := hashMid, len := 0x400, buf := [] } := by
  decide +kernel

/-- One byte past the end of memory (95_test_vectors section 7, rows 6 and 13). -/
theorem test_update_checks :
    after (exec (.sha512Update 0 0xff81) (inPhase .fresh)) newest = some (some (0x04, [])) ∧
    after (exec (.sha512Update 0 0) State.reset) newest = some (some (0x03, [])) := by
  decide

/-- No block: only the phase moves, whatever the address (95_test_vectors section 7, row 11). -/
theorem test_update_multi_of_nothing :
    after (exec (.sha512UpdateMulti 0 0xffff 0) (inPhase .fresh)) (fun s => (ctxAt s 0, newest s)) =
      some ({ phase := .absorbing, h := iv, len := 0, buf := [] }, some (0x00, [])) := by
  decide +kernel

/-- A block after another: chained from `H` and `LEN`, not from `IV` (95_test_vectors 5.5, fourth row). -/
theorem test_update_multi_chains :
    after
      (exec (.sha512UpdateMulti 0 0xff80 1)
        (withCtx .absorbing hashMid 0x400 (withMem 0xff80 ((List.range 128).map fun i => BitVec.ofNat 8 (128 + i)))))
      (fun s => ctxAt s 0) =
      some {
        phase := .absorbing, len := 0x800, buf := [],
        h := #v[0x74b944c38f7a7195, 0x11989774dc0cd179, 0xa04cd1c68e178f16, 0xc8fa2489be592019, 0xd11c84a02523deba,
          0x0ee864154f8728ae, 0xef4bd59c69cb5c09, 0xc85c6ddb0b1c762e] } := by
  decide +kernel

/-- A tail of 72 bytes after one block: the length field is 0x640 bits (95_test_vectors 6.3, third row). -/
theorem test_update_last_after_a_block :
    after
      (exec (.sha512UpdateLast 0 0x1080 72)
        (withCtx .absorbing hashMid 0x400 (withMem 0x1080 ((List.range 72).map fun i => BitVec.ofNat 8 (128 + i)))))
      (fun s => ctxAt s 0) =
      some { phase := .padded, h := hashEnd, len := 0x640, buf := [] } := by
  decide +kernel

/-- Context before size before order (95_test_vectors section 7, rows 18 and 19). -/
theorem test_update_last_priority :
    after (exec (.sha512UpdateLast 0 0 200) (inPhase .finalized)) newest = some (some (0x02, [])) ∧
    after (exec (.sha512UpdateLast 5 0 200) (inPhase .finalized)) newest = some (some (0x01, [])) := by
  decide

/-- The digest, `H[0]` first, each word most significant byte first (95_test_vectors 6.3, last row). -/
theorem test_finish_digest :
    after (exec (.sha512Finish 0) (withCtx .padded hashEnd 0x640 State.reset)) (fun s => (newest s, ctxAt s 0)) =
      some (some (0x00, bytesOf 64 0x986058e9895e2c2ab8f9e8cbdf801db12a44842a56a91d5a4e87b1fc98b293722c4664142e42c3c551ff898646268cd92b84ed230b8c94bed7798d4f27cd7465),
        { phase := .finalized, h := hashEnd, len := 0x640, buf := [] }) := by
  decide +kernel

/-- Not before padding, not twice (95_test_vectors section 7, rows 10 and 17). -/
theorem test_finish_order :
    after (exec (.sha512Finish 0) (inPhase .fresh)) newest = some (some (0x03, [])) ∧
    after (exec (.sha512Finish 0) (inPhase .finalized)) newest = some (some (0x03, [])) := by
  decide

/-- "abc" (95_test_vectors 6.2). -/
theorem test_hash_abc :
    after (exec (.sha512Hash 0x0100 3) (withMem 0x0100 [0x61, 0x62, 0x63])) (fun s => (newest s, s.ctxs)) =
      some (some (0x00, bytesOf 64 0xddaf35a193617abacc417349ae20413112e6fa4e89a97ea20a9eeee64b55d39a2192992a274fc1a836ba3c23a3feebbd454d4423643ce80e2a9ac94fa54ca49f), State.reset.ctxs) := by
  decide +kernel

/-- A tail of 112 bytes takes two padding blocks (95_test_vectors 6.2, 61 x 112). -/
theorem test_hash_112_bytes :
    after (exec (.sha512Hash 0 112) (withMem 0 (List.replicate 112 0x61))) newest =
      some (some (0x00, bytesOf 64 0xc01d080efd492776a1c43bd23dd99d0a2e626d481e16782e75d54c2503b5dc32bd05f0f1ba33e568b88fd2d970929b719ecbb152f58f130a407c8830604b70ca)) := by
  decide +kernel

/-! ### Witnesses: for each obligation with hypotheses, concrete values that meet them, at the edge of each clause -/

/-- `FitsBelow` in a state whose memory ends below 2^16. -/
theorem fits_iff (s : State) (a n : Nat) (h : s.aw = some 16) : FitsBelow s a n ↔ a + n ≤ 65536 := by
  simp [FitsBelow, h]

/-- Reset, with one command record pending. -/
def pending (r : Record) : State := { State.reset with cmdQueue := [r] }

/-- A state of known shape that a command reaches: `SHA512_FINISH` on a padded context. -/
def finished : State :=
  respond (digest iv) { inPhase .padded with ctxs := (inPhase .padded).ctxs.set 0 { phase := .finalized, h := iv, len := 0, buf := [] } }

/-- A next state exists: `SHA512_FINISH` answers. -/
theorem witness_exec_next : exec (.sha512Finish 0) (inPhase .padded) = .next finished := rfl

/-- An exception is a next state too. -/
theorem witness_exec_exception :
    exec (.sha512Finish 0) (inPhase .fresh) = .next (takeException .orderViolation (inPhase .fresh)) :=
  rfl

theorem witness_StepRunsTheDecodedCommand :
    State.reset.cmdQueue = [] ∧
    (pending (encode (.sha512Init 1))).cmdQueue = encode (.sha512Init 1) :: [] ∧
    decode (encode (.sha512Init 1)) = .ok (.sha512Init 1) ∧
    decode (bareRecord 0x14) = .error (.reservedOpcode 0x14) := by decide

theorem witness_ReservedOpcodesRaiseIllegalCommand :
    (pending (bareRecord 0x26)).cmdQueue = bareRecord 0x26 :: [] ∧
    (∀ op ∈ ([0x00, 0x0f, 0x14, 0x1f, 0x26, 0xff] : List Byte), reservedOp (bareRecord op).op = true) := by decide

theorem witness_DecodeReadsTheRecord :
    (bareRecord 0x10).op = 0x10 ∧ (bareRecord 0x11).op = 0x11 ∧ (bareRecord 0x12).op = 0x12 ∧
    (bareRecord 0x13).op = 0x13 ∧ (bareRecord 0x20).op = 0x20 ∧ (bareRecord 0x21).op = 0x21 ∧
    (bareRecord 0x22).op = 0x22 ∧ (bareRecord 0x23).op = 0x23 ∧ (bareRecord 0x24).op = 0x24 ∧
    (bareRecord 0x25).op = 0x25 := by decide

theorem witness_DecodeEncodeAgree : decode (fullRecord 0x23) = .ok (.sha512UpdateLast 1 5 3) := rfl

theorem witness_WordPrimitivesAreModular :
    (0 < 1 ∧ 1 < 32) ∧ (0 < 31 ∧ 31 < 32) ∧ (0 < 1 ∧ 1 < 64) ∧ (0 < 63 ∧ 63 < 64) := by decide

theorem witness_ByteOrderConversions :
    0 + 3 < [0x01, 0x02, 0x03, (0x04 : Byte)].length ∧ 2 + 7 < (bytesOf 10 0x0102).length := by decide

theorem witness_RoundsActOnDisjointGroups :
    ((15, 3, 7, 11) : Fin 16 × Fin 16 × Fin 16 × Fin 16) ∈
      ([(0, 4, 8, 12), (5, 9, 13, 1), (10, 14, 2, 6), (15, 3, 7, 11)] : List (Fin 16 × Fin 16 × Fin 16 × Fin 16)) ∧
    ((15, 12, 13, 14) : Fin 16 × Fin 16 × Fin 16 × Fin 16) ∈
      ([(0, 1, 2, 3), (5, 6, 7, 4), (10, 11, 8, 9), (15, 12, 13, 14)] : List (Fin 16 × Fin 16 × Fin 16 × Fin 16)) := by
  decide

theorem witness_CounterSequenceWraps :
    1 < salsaBlocks 65 ∧ 0 + 1 < salsaBlocks 65 ∧ 1 + 1 = salsaBlocks 65 ∧ 0 + 1 = salsaBlocks 64 ∧
    0 + 1 = salsaBlocks 1 := by decide

theorem witness_Salsa20KeystreamMeaning :
    (key1.length = 32 ∧ nonce1.length = 8) ∧ ¬((key1.take 31).length = 32 ∧ nonce1.length = 8) ∧
    ¬(key1.length = 32 ∧ (0 :: nonce1).length = 8) := by decide

theorem witness_Salsa20XorIcMeaning :
    ¬((key1.take 31).length = 32 ∧ nonce1.length = 8) ∧
    (key1.length = 32 ∧ nonce1.length = 8) ∧
    ¬(FitsBelow State.reset 0xfff0 17 ∧ FitsBelow State.reset 0 17) ∧
    ¬(FitsBelow State.reset 0 17 ∧ FitsBelow State.reset 0xfff0 17) ∧
    (FitsBelow State.reset 0x0100 70 ∧ FitsBelow State.reset 0x0145 70 ∧
      ¬(0x0100 = 0x0145 ∨ 0x0100 + 70 ≤ 0x0145 ∨ 0x0145 + 70 ≤ 0x0100)) ∧
    (FitsBelow State.reset 0xffba 70 ∧ FitsBelow State.reset 0xff74 70 ∧
      (0xffba = 0xff74 ∨ 0xffba + 70 ≤ 0xff74 ∨ 0xff74 + 70 ≤ 0xffba)) := by
  simp only [fits_iff State.reset _ _ rfl]; decide

theorem witness_Salsa20XorMeaning :
    (key1.length = 32 ∧ nonce1.length = 8) ∧
    (FitsBelow State.reset 0x0100 70 ∧ FitsBelow State.reset 0x0146 70 ∧
      (0x0100 = 0x0146 ∨ 0x0100 + 70 ≤ 0x0146 ∨ 0x0146 + 70 ≤ 0x0100)) := by
  simp only [fits_iff State.reset _ _ rfl]; decide

theorem witness_Salsa20StreamMeaning :
    ¬(key1.length = 32 ∧ (nonce1.take 7).length = 8) ∧ (key1.length = 32 ∧ nonce1.length = 8) ∧
    (0 < 17 ∧ ¬FitsBelow State.reset 0xfff0 17) ∧ FitsBelow State.reset 0xfff0 16 := by
  simp only [fits_iff State.reset _ _ rfl]; decide

theorem witness_XorStreamIsInvolutiveAndComposes :
    64 * 1 + 63 < (bytesOf 128 0).length ∧ 63 < 64 ∧ 64 * 2 ≤ (bytesOf 128 0).length := by decide +kernel

theorem witness_InPlaceXorTwiceRestoresMemory :
    memoryWf (withMem 0xffff [0x07]).mem = true ∧ (key1.length = 32 ∧ nonce1.length = 8) ∧
    FitsBelow (withMem 0xffff [0x07]) 0xffba 70 :=
  ⟨by decide +kernel, by decide, (fits_iff _ _ _ rfl).2 (by decide)⟩

theorem witness_SplitXorCommandsCompose :
    (key1.length = 32 ∧ nonce1.length = 8) ∧ FitsBelow State.reset 0 (64 * 2 + 2) ∧
    FitsBelow State.reset 0xff7e (64 * 2 + 2) ∧
    (0 = 0xff7e ∨ 0 + (64 * 2 + 2) ≤ 0xff7e ∨ 0xff7e + (64 * 2 + 2) ≤ 0) := by
  simp only [fits_iff State.reset _ _ rfl]; decide

theorem witness_ChooseAndMajorityAreBitwise : 0 < 64 ∧ 63 < 64 := by decide

theorem witness_SigmaFunctionsBitByBit : 0 < 64 ∧ 57 < 64 ∧ 63 < 64 := by decide

theorem witness_MessageScheduleRecurrence : 0 < 64 ∧ 63 < 64 := by decide

theorem witness_PaddingLayout :
    (bytesOf 111 0).length ≤ 127 ∧ (bytesOf 112 0).length ≤ 127 ∧ (bytesOf 127 0).length ≤ 127 ∧
    110 < (bytesOf 111 0).length ∧ ((bytesOf 110 0).length < 111 ∧ 111 < 128 - 16) ∧
    ((bytesOf 112 0).length < 239 ∧ 239 < 256 - 16) := by decide +kernel

theorem witness_Sha512InitMeaning : 1 < nctx State.reset ∧ ¬2 < nctx State.reset := by decide

theorem witness_Sha512UpdateMultiMeaning :
    ¬2 < nctx (inPhase .fresh) ∧ 0 < nctx (inPhase .fresh) ∧ 1 < nctx (inPhase .fresh) ∧
    ¬((ctxAt (inPhase .padded) 0).phase = .fresh ∨ (ctxAt (inPhase .padded) 0).phase = .absorbing) ∧
    ((ctxAt (inPhase .fresh) 0).phase = .fresh ∨ (ctxAt (inPhase .fresh) 0).phase = .absorbing) ∧
    ((ctxAt (inPhase .absorbing) 0).phase = .fresh ∨ (ctxAt (inPhase .absorbing) 0).phase = .absorbing) ∧
    (0 < 2 ∧ ¬FitsBelow (inPhase .fresh) 0xff01 (128 * 2)) ∧ FitsBelow (inPhase .fresh) 0xff00 (128 * 2) := by
  simp only [fits_iff (inPhase .fresh) _ _ rfl]; decide

theorem witness_Sha512UpdateMeaning :
    0 < nctx (inPhase .fresh) ∧
    ((ctxAt (inPhase .fresh) 0).phase = .fresh ∨ (ctxAt (inPhase .fresh) 0).phase = .absorbing) ∧
    FitsBelow (inPhase .fresh) 0xff80 128 := by
  simp only [fits_iff (inPhase .fresh) _ _ rfl]; decide

theorem witness_Sha512UpdateLastMeaning :
    ¬2 < nctx (inPhase .fresh) ∧ 0 < nctx (inPhase .fresh) ∧ 127 < 128 ∧ 127 ≤ 127 ∧
    ¬((ctxAt (inPhase .uninit) 0).phase = .fresh ∨ (ctxAt (inPhase .uninit) 0).phase = .absorbing) ∧
    ((ctxAt (inPhase .absorbing) 0).phase = .fresh ∨ (ctxAt (inPhase .absorbing) 0).phase = .absorbing) ∧
    (0 < 127 ∧ ¬FitsBelow (inPhase .absorbing) 0xff82 127) ∧ FitsBelow (inPhase .absorbing) 0xff81 127 := by
  simp only [fits_iff (inPhase .absorbing) _ _ rfl]; decide

theorem witness_Sha512FinishMeaning :
    ¬2 < nctx (inPhase .padded) ∧ 0 < nctx (inPhase .padded) ∧ (ctxAt (inPhase .finalized) 0).phase ≠ .padded ∧
    (ctxAt (inPhase .padded) 0).phase = .padded := by decide

theorem witness_Sha512HashMeaning : (0 < 1 ∧ ¬FitsBelow State.reset 0x10000 1) ∧ FitsBelow State.reset 0xffff 1 := by
  simp only [fits_iff State.reset _ _ rfl]; decide

theorem witness_UpdateMultiComposes :
    0 < nctx (inPhase .fresh) ∧
    ((ctxAt (inPhase .fresh) 0).phase = .fresh ∨ (ctxAt (inPhase .fresh) 0).phase = .absorbing) ∧
    FitsBelow (inPhase .fresh) 0xfe80 (128 * (1 + 2)) := by
  simp only [fits_iff (inPhase .fresh) _ _ rfl]; decide

theorem witness_IncrementalHashEqualsOneShot :
    1 < nctx State.reset ∧ 127 ≤ 127 ∧ FitsBelow State.reset 0x1000 (128 * [1, 0, 2].sum + 127) := by
  simp only [fits_iff State.reset _ _ rfl]; decide

theorem witness_PhaseTransitions :
    0 < nctx (inPhase .fresh) ∧ 127 ≤ 127 ∧ FitsBelow (inPhase .fresh) 0xff00 128 ∧
    FitsBelow (inPhase .fresh) 0xff00 (128 * 2) ∧ FitsBelow (inPhase .fresh) 0xff00 127 := by
  simp only [fits_iff (inPhase .fresh) _ _ rfl]; decide

theorem witness_ExceptionPriority :
    NamesNoContext (inPhase .finalized) (.sha512UpdateLast 2 0x10000 128) ∧
    (¬NamesNoContext (inPhase .finalized) (.sha512UpdateLast 0 0x10000 128) ∧
      WrongSize (.sha512UpdateLast 0 0x10000 128)) ∧
    (¬WrongSize (.sha512UpdateLast 0 0x10000 127) ∧
      OutOfOrder (inPhase .finalized) (.sha512UpdateLast 0 0x10000 127)) ∧
    (¬NamesNoContext (inPhase .fresh) (.sha512UpdateLast 0 0xff82 127) ∧
      ¬OutOfOrder (inPhase .fresh) (.sha512UpdateLast 0 0xff82 127) ∧
      BadBuffer (inPhase .fresh) (.sha512UpdateLast 0 0xff82 127)) ∧
    (¬OutOfOrder (inPhase .fresh) (.sha512UpdateLast 0 0xff81 127) ∧
      ¬BadBuffer (inPhase .fresh) (.sha512UpdateLast 0 0xff81 127)) := by
  simp only [BadBuffer, readFootprint, writeFootprint, fits_iff (inPhase .fresh) _ _ rfl, NamesNoContext, ctxOperand,
    WrongSize, OutOfOrder]
  decide

theorem witness_ExceptionsArePrecise :
    (∃ t, exec (.sha512Finish 0) (inPhase .padded) = .next t) ∧ ∃ t, exec (.sha512Finish 0) (inPhase .fresh) = .next t :=
  ⟨⟨_, witness_exec_next⟩, ⟨_, witness_exec_exception⟩⟩

theorem witness_ResponseEncoding :
    (pending (encode (.sha512Finish 0))).cmdQueue = encode (.sha512Finish 0) :: [] ∧
    ∃ t, step (pending (encode (.sha512Finish 0))) = .next t :=
  ⟨rfl, ⟨_, rfl⟩⟩

theorem witness_EmptyTransfersIgnoreAddresses :
    key1.length = 32 ∧ nonce1.length = 8 ∧ 0 < nctx (inPhase .fresh) ∧ (ctxAt (inPhase .fresh) 0).phase = .fresh := by
  decide

theorem witness_WritesStayInTheFootprint :
    (∃ t, exec (.salsa20Stream 0xfff0 16 nonce1 key1) State.reset = .next t) ∧
    (0xffef < (writeFootprint (.salsa20Stream 0xfff0 16 nonce1 key1)).1) ∧
    ((writeFootprint (.salsa20Stream 0xfff0 16 nonce1 key1)).1 +
      (writeFootprint (.salsa20Stream 0xfff0 16 nonce1 key1)).2 ≤ 0x10000) :=
  ⟨⟨_, rfl⟩, by decide, by decide⟩

theorem witness_ReadsStayInTheFootprint :
    memoryWf (inPhase .padded).mem = true ∧ memoryWf (withMem 5 [0x07]).mem = true ∧
    (inPhase .padded).mem ≠ (withMem 5 [0x07]).mem ∧
    memRead (inPhase .padded).mem (readFootprint (.sha512Finish 0)).1 (readFootprint (.sha512Finish 0)).2 =
      memRead (withMem 5 [0x07]).mem (readFootprint (.sha512Finish 0)).1 (readFootprint (.sha512Finish 0)).2 ∧
    (∃ t, exec (.sha512Finish 0) (inPhase .padded) = .next t ∧ t.faults = (inPhase .padded).faults) ∧
    ∃ t', exec (.sha512Finish 0) { inPhase .padded with mem := (withMem 5 [0x07]).mem } = .next t' :=
  ⟨by decide, by decide, by decide, by decide, ⟨_, witness_exec_next, by decide⟩, ⟨_, rfl⟩⟩

theorem witness_EnginesAreIndependent :
    (∃ t, exec (.salsa20Keystream nonce1 0 key1) State.reset = .next t) ∧
    isSalsa (.salsa20Keystream nonce1 0 key1) = true ∧
    (∃ t, exec (.sha512Finish 0) (inPhase .padded) = .next t) ∧ isSalsa (.sha512Finish 0) = false :=
  ⟨⟨_, rfl⟩, rfl, ⟨_, witness_exec_next⟩, rfl⟩

theorem witness_OtherContextsAreUntouched :
    (∃ t, exec (.sha512Finish 0) (inPhase .padded) = .next t) ∧ ctxOperand (.sha512Finish 0) ≠ some 1 :=
  ⟨⟨_, witness_exec_next⟩, by decide⟩

theorem witness_CommandsReadOnlyTheirContext :
    let ctxs := (inPhase .padded).ctxs.set 1 { phase := .fresh, h := iv, len := 0, buf := [] }
    ctxs.length = (inPhase .padded).ctxs.length ∧ ctxs ≠ (inPhase .padded).ctxs ∧
    (∀ k, ctxOperand (.sha512Finish 0) = some k → ctxs[k]? = (inPhase .padded).ctxs[k]?) ∧
    (∃ t, exec (.sha512Finish 0) (inPhase .padded) = .next t) ∧
    ∃ t', exec (.sha512Finish 0) { inPhase .padded with ctxs := ctxs } = .next t' :=
  ⟨rfl, by decide, fun k h => by injection h with h; subst h; rfl, ⟨_, witness_exec_next⟩, ⟨_, rfl⟩⟩

theorem witness_OneResponsePerCommand :
    (∃ t, step State.reset = .next t) ∧ ∃ t, step (pending (bareRecord 0x14)) = .next t :=
  ⟨⟨_, rfl⟩, ⟨_, rfl⟩⟩

theorem witness_NoCommandReturnsToUninit :
    (∃ t, exec (.sha512Finish 0) (inPhase .padded) = .next t) ∧ (ctxAt (inPhase .padded) 0).phase ≠ .uninit :=
  ⟨⟨_, witness_exec_next⟩, by decide⟩

theorem witness_WellFormedCommandsPassTheBoundary :
    (Instr.sha512Finish 0).wellFormed (params (inPhase .fresh)) = true ∧
    exec (.sha512Finish 0) (inPhase .fresh) = .next (takeException .orderViolation (inPhase .fresh)) :=
  ⟨by decide, witness_exec_exception⟩

theorem witness_TransientRegistersAreInvisible :
    AgreeButTransient (pending (encode (.sha512Hash 0 0)))
      { pending (encode (.sha512Hash 0 0)) with sha := { ShaRegs.reset with t1 := 1 }, residueTick := 7 } ∧
    (pending (encode (.sha512Hash 0 0))).sha ≠ { ShaRegs.reset with t1 := 1 } :=
  ⟨⟨rfl, rfl, rfl, rfl, rfl, rfl, rfl⟩, by decide⟩

theorem witness_StepKeepsSoundness :
    Sound (pending (encode (.sha512Finish 0))) ∧ ∃ t, step (pending (encode (.sha512Finish 0))) = .next t :=
  ⟨⟨by decide, ⟨rfl, fun c h => absurd h (by simp [pending, State.reset, State.resetWith])⟩,
    fun c h => by rw [List.eq_of_mem_replicate (h : c ∈ List.replicate 2 Context.reset)]; exact ⟨rfl, trivial⟩,
    fun r h => absurd h (by simp [pending, State.reset, State.resetWith]), rfl⟩, ⟨_, rfl⟩⟩

theorem witness_ResetIsSound :
    1 ≤ ({ nctx := 1, aw := some 16, lenw := none } : Params).nctx ∧
    MemorySound (State.resetWith { nctx := 1, aw := some 16, lenw := none } [(0xffff, 0x07)]) :=
  ⟨by decide, rfl, fun c h => by rw [List.mem_singleton.1 h]; decide⟩

end Sys2Proof.Tests
end

section
/-! The primitives of 00_scope R12 to R16 against the formulas of the rules. Both rotations are the library's
`BitVec.rotateLeft`, so the formula and the bit move of a rotation are proved once, for every width. -/

namespace Sys2Proof.Machine

/-! ### Rotations (R12, R13) -/

/-- The two halves of a rotated word do not overlap, so their bitwise or is their sum. -/
theorem toNat_rotateLeft_eq_add {w : Nat} (a : BitVec w) (n : Nat) (hn : n < w) :
    (a.rotateLeft n).toNat = (a.toNat * 2 ^ n) % 2 ^ w + a.toNat / 2 ^ (w - n) := by
  have hpow : 2 ^ w = 2 ^ (w - n) * 2 ^ n := by rw [← Nat.pow_add, Nat.sub_add_cancel hn.le]
  have hhigh : (a.toNat * 2 ^ n) % 2 ^ w = (a.toNat % 2 ^ (w - n)) <<< n := by
    rw [hpow, Nat.mul_mod_mul_right, Nat.shiftLeft_eq]
  have hlow : a.toNat / 2 ^ (w - n) < 2 ^ n := Nat.div_lt_of_lt_mul (hpow ▸ a.isLt)
  rw [BitVec.toNat_rotateLeft, Nat.mod_eq_of_lt hn, Nat.shiftLeft_eq, Nat.shiftRight_eq_div_pow, hhigh,
    Nat.shiftLeft_add_eq_or_of_lt hlow]

/-- A left rotation by `n` moves bit `i` to bit `(i + n) mod w`, past the top or not. -/
theorem getLsbD_rotateLeft_add_mod {w : Nat} (a : BitVec w) (n i : Nat) (hn : n < w) (hi : i < w) :
    (a.rotateLeft n).getLsbD ((i + n) % w) = a.getLsbD i := by
  rw [BitVec.getLsbD_rotateLeft_of_le hn]
  rcases Nat.lt_or_ge (i + n) w with hlt | hge
  · rw [Nat.mod_eq_of_lt hlt]
    simp [hlt]
  · have hmod : (i + n) % w = i + n - w := by
      rw [Nat.mod_eq_sub_mod hge, Nat.mod_eq_of_lt (by omega)]
    have hwrap : i + n - w < n := by omega
    have hback : w - n + (i + n - w) = i := by omega
    simp [hmod, hwrap, hback]

theorem rotl32_eq_rotateLeft (a : Word32) (n : Nat) (hn : n < 32) : rotl32 a n = a.rotateLeft n := by
  rw [BitVec.rotateLeft_def, Nat.mod_eq_of_lt hn, rotl32]

/-- A right rotation by `n` is a left rotation by `64 - n`. -/
theorem rotr64_eq_rotateLeft (a : Word64) (n : Nat) (h0 : 0 < n) (hn : n < 64) :
    rotr64 a n = a.rotateLeft (64 - n) := by
  rw [BitVec.rotateLeft_def, Nat.mod_eq_of_lt (by omega), Nat.sub_sub_self hn.le, rotr64, BitVec.or_comm]

theorem toNat_rotl32 (a : Word32) (n : Nat) (hn : n < 32) :
    (rotl32 a n).toNat = (a.toNat * 2 ^ n) % 2 ^ 32 + a.toNat / 2 ^ (32 - n) := by
  rw [rotl32_eq_rotateLeft a n hn, toNat_rotateLeft_eq_add a n hn]

theorem getLsbD_rotl32 (a : Word32) (n i : Nat) (hn : n < 32) (hi : i < 32) :
    (rotl32 a n).getLsbD ((i + n) % 32) = a.getLsbD i := by
  rw [rotl32_eq_rotateLeft a n hn, getLsbD_rotateLeft_add_mod a n i hn hi]

theorem toNat_rotr64 (a : Word64) (n : Nat) (h0 : 0 < n) (hn : n < 64) :
    (rotr64 a n).toNat = a.toNat / 2 ^ n + (a.toNat % 2 ^ n) * 2 ^ (64 - n) := by
  have hpow : 2 ^ 64 = 2 ^ n * 2 ^ (64 - n) := by rw [← Nat.pow_add, Nat.add_sub_cancel' hn.le]
  rw [rotr64_eq_rotateLeft a n h0 hn, toNat_rotateLeft_eq_add a (64 - n) (by omega), Nat.sub_sub_self hn.le, hpow,
    Nat.mul_mod_mul_right, Nat.add_comm]

theorem getLsbD_rotr64 (a : Word64) (n i : Nat) (h0 : 0 < n) (hn : n < 64) (hi : i < 64) :
    (rotr64 a n).getLsbD ((i + 64 - n) % 64) = a.getLsbD i := by
  rw [rotr64_eq_rotateLeft a n h0 hn, Nat.add_sub_assoc hn.le i,
    getLsbD_rotateLeft_add_mod a (64 - n) i (by omega) hi]

/-! ### Arithmetic and bitwise functions (R12 to R14) -/

theorem toNat_add32 (a b : Word32) : (add32 a b).toNat = (a.toNat + b.toNat) % 2 ^ 32 := BitVec.toNat_add a b

theorem toNat_add64 (a b : Word64) : (add64 a b).toNat = (a.toNat + b.toNat) % 2 ^ 64 := BitVec.toNat_add a b

theorem toNat_add128 (a b : Word128) : (add128 a b).toNat = (a.toNat + b.toNat) % 2 ^ 128 := BitVec.toNat_add a b

theorem getLsbD_xor32 (a b : Word32) (i : Nat) : (xor32 a b).getLsbD i = (a.getLsbD i ^^ b.getLsbD i) :=
  BitVec.getLsbD_xor

theorem getLsbD_xor64 (a b : Word64) (i : Nat) : (xor64 a b).getLsbD i = (a.getLsbD i ^^ b.getLsbD i) :=
  BitVec.getLsbD_xor

theorem getLsbD_and64 (a b : Word64) (i : Nat) : (and64 a b).getLsbD i = (a.getLsbD i && b.getLsbD i) :=
  BitVec.getLsbD_and

theorem toNat_not64 (a : Word64) : (not64 a).toNat = (2 ^ 64 - 1) - a.toNat := BitVec.toNat_not

theorem toNat_shr64 (a : Word64) (n : Nat) : (shr64 a n).toNat = a.toNat / 2 ^ n := by
  rw [shr64, BitVec.toNat_ushiftRight, Nat.shiftRight_eq_div_pow]

/-! ### Words and bytes (R16) -/

theorem byteAt_eq_getElem (b : List Byte) (i : Nat) (h : i < b.length) : byteAt b i = b[i] := by
  simp [byteAt, h]

/-- A byte appended below a word adds to the word shifted up by eight bits. -/
theorem toNat_append_byte {m : Nat} (x : BitVec m) (c : Byte) : (x ++ c).toNat = x.toNat * 2 ^ 8 + c.toNat := by
  rw [BitVec.toNat_append, ← Nat.shiftLeft_add_eq_or_of_lt c.isLt, Nat.shiftLeft_eq]

theorem toNat_le32Load (b : List Byte) (o : Nat) (h : o + 3 < b.length) :
    (le32Load b o).toNat =
      b[o].toNat + 2 ^ 8 * b[o + 1].toNat + 2 ^ 16 * b[o + 2].toNat + 2 ^ 24 * b[o + 3].toNat := by
  rw [le32Load, byteAt_eq_getElem b (o + 3) h, byteAt_eq_getElem b (o + 2) (by omega),
    byteAt_eq_getElem b (o + 1) (by omega), byteAt_eq_getElem b o (by omega)]
  simp only [toNat_append_byte]
  omega

theorem toNat_be64Load (b : List Byte) (o : Nat) (h : o + 7 < b.length) :
    (be64Load b o).toNat =
      b[o].toNat * 2 ^ 56 + b[o + 1].toNat * 2 ^ 48 + b[o + 2].toNat * 2 ^ 40 + b[o + 3].toNat * 2 ^ 32 +
        b[o + 4].toNat * 2 ^ 24 + b[o + 5].toNat * 2 ^ 16 + b[o + 6].toNat * 2 ^ 8 + b[o + 7].toNat := by
  rw [be64Load, byteAt_eq_getElem b o (by omega), byteAt_eq_getElem b (o + 1) (by omega),
    byteAt_eq_getElem b (o + 2) (by omega), byteAt_eq_getElem b (o + 3) (by omega),
    byteAt_eq_getElem b (o + 4) (by omega), byteAt_eq_getElem b (o + 5) (by omega),
    byteAt_eq_getElem b (o + 6) (by omega), byteAt_eq_getElem b (o + 7) h]
  simp only [toNat_append_byte]
  omega

/-- The four byte fields of a word, joined again from the top down, are the word. -/
theorem le32Load_le32Store (v : Word32) : le32Load (le32Store v) 0 = v := by
  calc le32Load (le32Store v) 0
      = v.extractLsb' 24 8 ++ v.extractLsb' 16 8 ++ v.extractLsb' 8 8 ++ v.extractLsb' 0 8 := rfl
    _ = v.extractLsb' 0 32 := by simp only [BitVec.extractLsb'_append_extractLsb'_eq_extractLsb']
    _ = v := BitVec.extractLsb'_eq_self

/-- The eight byte fields of a word, joined again from the top down, are the word. -/
theorem be64Load_be64Store (v : Word64) : be64Load (be64Store v) 0 = v := by
  calc be64Load (be64Store v) 0
      = v.extractLsb' 56 8 ++ v.extractLsb' 48 8 ++ v.extractLsb' 40 8 ++ v.extractLsb' 32 8 ++
          v.extractLsb' 24 8 ++ v.extractLsb' 16 8 ++ v.extractLsb' 8 8 ++ v.extractLsb' 0 8 := rfl
    _ = v.extractLsb' 0 64 := by simp only [BitVec.extractLsb'_append_extractLsb'_eq_extractLsb']
    _ = v := BitVec.extractLsb'_eq_self

/-! ### The obligations -/

/-- Settles O6: one lemma per primitive; both rotations come from `BitVec.rotateLeft`. -/
theorem wordPrimitivesAreModular : Obligations.WordPrimitivesAreModular := by
  unfold Obligations.WordPrimitivesAreModular
  exact ⟨toNat_add32, getLsbD_xor32, fun a n _ hn => toNat_rotl32 a n hn,
    fun a n i _ hn hi => getLsbD_rotl32 a n i hn hi, toNat_add64, getLsbD_xor64, getLsbD_and64, toNat_not64,
    toNat_rotr64, getLsbD_rotr64, fun a n _ _ => toNat_shr64 a n, toNat_add128⟩

/-- Settles O7: the loads are sums of shifted bytes, the stores are the rule's lists by definition, and the byte
fields of a word join to the word. -/
theorem byteOrderConversions : Obligations.ByteOrderConversions := by
  unfold Obligations.ByteOrderConversions
  exact ⟨toNat_le32Load, toNat_be64Load, fun _ => rfl, fun _ => rfl, fun _ => rfl, le32Load_le32Store,
    be64Load_be64Store⟩

end Sys2Proof.Machine
end

section
/-! `SERIALIZE` (R53): the byte at `4j + m` is said once, and both forms of the rule are read off from it. -/

namespace Sys2Proof.Machine

theorem vector_toList_eq_ofFn {α : Type} {n : Nat} (v : Vector α n) : v.toList = List.ofFn fun i : Fin n => v[i] :=
  (congrArg Vector.toList Vector.ofFn_getElem.symm).trans Vector.toList_ofFn

theorem le32Store_eq_ofFn (v : Word32) : le32Store v = List.ofFn fun m : Fin 4 => le32Byte v m := by
  simp [le32Store]

/-- The quotient and remainder `serialize` takes of a position recover the word and the byte. -/
theorem serialize_ks_getElem (r : SalsaRegs) (j : Fin 16) (m : Fin 4) :
    (serialize r).ks[4 * j.val + m.val] = le32Byte r.x[j] m := by
  have hdiv : (4 * j.val + m.val) / 4 = j := by omega
  have hmod : (4 * j.val + m.val) % 4 = m := by omega
  simp [serialize, hdiv, hmod]

/-- The 64 bytes, cut into sixteen groups of four, are the stored words. -/
theorem serialize_ks_toList (r : SalsaRegs) : (serialize r).ks.toList = r.x.toList.flatMap le32Store := by
  calc (serialize r).ks.toList
      = List.ofFn fun p : Fin (4 * 16) => (serialize r).ks[p] := vector_toList_eq_ofFn _
    _ = (List.ofFn fun j : Fin 16 => List.ofFn fun m : Fin 4 => (serialize r).ks[4 * j.val + m.val]).flatten :=
        List.ofFn_mul' _
    _ = (List.ofFn fun j : Fin 16 => le32Store r.x[j]).flatten := by
        simp only [serialize_ks_getElem, le32Store_eq_ofFn]
    _ = r.x.toList.flatMap le32Store := by
        rw [vector_toList_eq_ofFn r.x, List.flatMap, List.map_ofFn, Function.comp_def]

/-- Settles O14: the joined stores by `serialize_ks_toList`, the single byte by `serialize_ks_getElem`. -/
theorem serialisationIsLittleEndian : Obligations.SerialisationIsLittleEndian := by
  unfold Obligations.SerialisationIsLittleEndian
  intro r
  refine ⟨serialize_ks_toList r, fun j m => ?_⟩
  rw [Vector.getElem?_eq_getElem (by omega), serialize_ks_getElem, le32Byte]

end Sys2Proof.Machine
end

section
/-! Which opcodes decode, and what a step answers: a record decodes exactly when its opcode is not reserved (30_encoding
R81, R86), and the one response a step appends is the value of the record's length or a cause code (R29, R90). -/

namespace Sys2Proof.Machine

/-! ### Opcodes and decoding (R81, R86) -/

/-- No opcode but the ten of R81 lies outside the reserved ranges of R86. -/
theorem reservedOp_of_ne (op : Byte) (hsalsa : op ≠ 0x10 ∧ op ≠ 0x11 ∧ op ≠ 0x12 ∧ op ≠ 0x13)
    (hsha : op ≠ 0x20 ∧ op ≠ 0x21 ∧ op ≠ 0x22 ∧ op ≠ 0x23 ∧ op ≠ 0x24 ∧ op ≠ 0x25) : reservedOp op = true := by
  simp only [reservedOp, Bool.or_eq_true, Bool.and_eq_true, decide_eq_true_eq]
  bv_omega

theorem reservedOp_opcode (i : Instr) : reservedOp (opcode i) = false := by
  cases i <;> rfl

theorem op_eq_opcode_of_decode (r : Record) (i : Instr) (h : decode r = .ok i) : r.op = opcode i := by
  unfold decode at h
  split at h <;> cases h <;> assumption

theorem reservedOp_of_decode_error (r : Record) (e : DecodeError) (h : decode r = .error e) :
    reservedOp r.op = true := by
  unfold decode at h
  split at h <;> cases h
  exact reservedOp_of_ne r.op (by tauto) (by tauto)

theorem decode_error_iff (r : Record) : (∃ e, decode r = .error e) ↔ reservedOp r.op = true := by
  refine ⟨fun ⟨e, he⟩ => reservedOp_of_decode_error r e he, fun hres => ?_⟩
  cases hd : decode r with
  | error e => exact ⟨e, rfl⟩
  | ok i => simp [op_eq_opcode_of_decode r i hd, reservedOp_opcode] at hres

theorem step_of_decode_error (s : State) (r : Record) (rest : List Record) (e : DecodeError)
    (hq : s.cmdQueue = r :: rest) (hd : decode r = .error e) :
    step s = .next (takeException .illegalCommand (takeCommand rest s)) := by
  simp only [step, hq, hd, reservedOpcode]

/-- Settles O2: the count by evaluation, decoding by `decode_error_iff`, the next state by `step_of_decode_error`. -/
theorem reservedOpcodesRaiseIllegalCommand : Obligations.ReservedOpcodesRaiseIllegalCommand := by
  unfold Obligations.ReservedOpcodesRaiseIllegalCommand
  refine ⟨by decide +kernel, decode_error_iff, fun s r rest hq hres => ?_⟩
  obtain ⟨e, he⟩ := (decode_error_iff r).2 hres
  exact step_of_decode_error s r rest e hq he

/-! ### The response of a command (R29, R82, R90) -/

@[simp] theorem digest_length (hash : Vector Word64 8) : (digest hash).length = 64 := rfl

theorem effectOf_value_length (i : Instr) (s : State) : (effectOf i s).2.length = valueLength i := by
  cases i <;> simp [effectOf, valueLength]

theorem causeCode_mem (c : Cause) : causeCode c ∈ ([0x01, 0x02, 0x03, 0x04] : List Byte) := by
  cases c <;> decide

/-- What a command appends to the log. -/
theorem exec_rspLog (i : Instr) (s t : State) (h : exec i s = .next t) :
    (∃ c, t.rspLog = s.rspLog ++ [{ status := causeCode c, value := [] }]) ∨
      ∃ v, v.length = valueLength i ∧ t.rspLog = s.rspLog ++ [{ status := okCode, value := v }] := by
  obtain ⟨c, -, rfl⟩ | ⟨-, rfl⟩ := exec_cases i s t h
  · exact .inl ⟨c, rfl⟩
  · obtain ⟨-, hlog, -⟩ := effectOf_kept i s
    exact .inr ⟨_, effectOf_value_length i s, by rw [respond_rspLog, hlog]⟩

/-- Settles O43: a record that does not decode is answered with `IllegalCommand`, another as `exec_rspLog` says. -/
theorem responseEncoding : Obligations.ResponseEncoding := by
  unfold Obligations.ResponseEncoding
  refine ⟨⟨rfl, rfl, rfl, rfl, rfl⟩, fun s t r rest hq h => ?_⟩
  obtain ⟨hnil, -⟩ | ⟨r', rest', hq', hstep⟩ := step_cases s t h
  · simp [hnil] at hq
  obtain ⟨rfl, rfl⟩ := List.cons.inj (hq.symm.trans hq')
  obtain ⟨e, -, rfl⟩ | ⟨i, hi, hexec⟩ := hstep
  · exact ⟨_, rfl, .inr ⟨causeCode_mem .illegalCommand, rfl⟩⟩
  · obtain ⟨c, hlog⟩ | ⟨v, hv, hlog⟩ := exec_rspLog i _ t hexec
    · exact ⟨_, hlog, .inr ⟨causeCode_mem c, rfl⟩⟩
    · exact ⟨_, hlog, .inl ⟨rfl, i, hi, hv⟩⟩

end Sys2Proof.Machine
end

section
/-! The Salsa20 core (40_salsa20_core R101 to R107, R110). A round is a run of quarter-rounds on a list of groups of
words; what it does when no position stands twice in the list is proved once, by induction on the list, and the column
round and the row round are two such lists. -/

namespace Sys2Proof.Machine

open Sys2Proof.Laws

/-! ### One quarter-round on a group of words -/

/-- Four positions of the matrix `X`, in the order in which `QR` takes their words (R103, R104). -/
abbrev WordGroup := Fin 16 × Fin 16 × Fin 16 × Fin 16

/-- The positions of a group. -/
def positions (g : WordGroup) : List (Fin 16) := [g.1, g.2.1, g.2.2.1, g.2.2.2]

/-- The words of `X` at a group. -/
def wordsAt (g : WordGroup) (r : SalsaRegs) : Word32 × Word32 × Word32 × Word32 :=
  (r.x[g.1], r.x[g.2.1], r.x[g.2.2.1], r.x[g.2.2.2])

/-- `QR` of four words taken as one value. -/
def quarterRoundWords (v : Word32 × Word32 × Word32 × Word32) : Word32 × Word32 × Word32 × Word32 :=
  quarterRound v.1 v.2.1 v.2.2.1 v.2.2.2

/-- `quarterRoundAt` on a group, paired with the number of the quarter-round. -/
def quarterRoundOn (p : Fin 8 × WordGroup) (r : SalsaRegs) : SalsaRegs :=
  quarterRoundAt p.1 p.2.1 p.2.2.1 p.2.2.2.1 p.2.2.2.2 r

theorem wordsAt_congr (g : WordGroup) (r r' : SalsaRegs) (h : ∀ j ∈ positions g, r.x[j] = r'.x[j]) :
    wordsAt g r = wordsAt g r' := by
  simp only [positions, List.forall_mem_cons] at h
  obtain ⟨h0, h1, h2, h3, -⟩ := h
  simp only [wordsAt, h0, h1, h2, h3]

/-- On distinct positions no write of the quarter-round is lost. -/
theorem wordsAt_quarterRoundOn_self (p : Fin 8 × WordGroup) (r : SalsaRegs) (hp : (positions p.2).Nodup) :
    wordsAt p.2 (quarterRoundOn p r) = quarterRoundWords (wordsAt p.2 r) := by
  simp only [positions, List.nodup_cons, List.mem_cons, not_or, Fin.ext_iff] at hp
  simp [wordsAt, quarterRoundOn, quarterRoundAt, quarterRoundWords, hp, eq_comm]

theorem quarterRoundOn_x_of_notMem (p : Fin 8 × WordGroup) (r : SalsaRegs) (j : Fin 16) (hj : j ∉ positions p.2) :
    (quarterRoundOn p r).x[j] = r.x[j] := by
  simp only [positions, List.mem_cons, not_or, Fin.ext_iff] at hj
  simp [quarterRoundOn, quarterRoundAt, hj, eq_comm]

/-! ### A round: quarter-rounds on a list of groups (R103, R104) -/

/-- The quarter-rounds of a list of groups, in order. -/
def roundOn (ps : List (Fin 8 × WordGroup)) (r : SalsaRegs) : SalsaRegs :=
  ps.foldl (fun r p => quarterRoundOn p r) r

/-- The positions a list of groups writes, each as often as it is written. -/
def allPositions (ps : List (Fin 8 × WordGroup)) : List (Fin 16) := ps.flatMap fun p => positions p.2

theorem roundOn_x_of_notMem (ps : List (Fin 8 × WordGroup)) (r : SalsaRegs) (j : Fin 16) (hj : j ∉ allPositions ps) :
    (roundOn ps r).x[j] = r.x[j] := by
  induction ps generalizing r with
  | nil => rfl
  | cons p ps ih =>
    obtain ⟨hp, hps⟩ : j ∉ positions p.2 ∧ j ∉ allPositions ps := by simpa [allPositions] using hj
    calc (roundOn ps (quarterRoundOn p r)).x[j]
        = (quarterRoundOn p r).x[j] := ih _ hps
      _ = r.x[j] := quarterRoundOn_x_of_notMem p r j hp

/-- When no position is written twice, each group's words become `QR` of those before the round, wherever the group
stands in the list: the quarter-rounds on the other groups do not write them. -/
theorem wordsAt_roundOn (ps : List (Fin 8 × WordGroup)) (r : SalsaRegs) (g : WordGroup)
    (hps : (allPositions ps).Nodup) (hg : g ∈ ps.map Prod.snd) :
    wordsAt g (roundOn ps r) = quarterRoundWords (wordsAt g r) := by
  induction ps generalizing r with
  | nil => cases hg
  | cons p ps ih =>
    obtain ⟨hp, hrest, hdisj⟩ := List.nodup_append'.mp hps
    obtain rfl | hg := List.mem_cons.mp hg
    · calc wordsAt p.2 (roundOn ps (quarterRoundOn p r))
          = wordsAt p.2 (quarterRoundOn p r) :=
            wordsAt_congr _ _ _ fun j hj => roundOn_x_of_notMem ps _ j (hdisj hj)
        _ = quarterRoundWords (wordsAt p.2 r) := wordsAt_quarterRoundOn_self p r hp
    · obtain ⟨p', hp', rfl⟩ := List.mem_map.mp hg
      have hkept : wordsAt p'.2 (quarterRoundOn p r) = wordsAt p'.2 r :=
        wordsAt_congr _ _ _ fun j hj => quarterRoundOn_x_of_notMem p r j fun hjp =>
          hdisj hjp (List.mem_flatMap.mpr ⟨p', hp', hj⟩)
      calc wordsAt p'.2 (roundOn ps (quarterRoundOn p r))
          = quarterRoundWords (wordsAt p'.2 (quarterRoundOn p r)) := ih _ hrest hg
        _ = quarterRoundWords (wordsAt p'.2 r) := by rw [hkept]

/-- The group list of R103, numbered as in `columnRound`. -/
def columnGroups : List (Fin 8 × WordGroup) :=
  [(0, 0, 4, 8, 12), (1, 5, 9, 13, 1), (2, 10, 14, 2, 6), (3, 15, 3, 7, 11)]

/-- The group list of R104, numbered as in `rowRound`. -/
def rowGroups : List (Fin 8 × WordGroup) :=
  [(4, 0, 1, 2, 3), (5, 5, 6, 7, 4), (6, 10, 11, 8, 9), (7, 15, 12, 13, 14)]

theorem columnRound_eq_roundOn (r : SalsaRegs) : columnRound r = roundOn columnGroups r := rfl

theorem rowRound_eq_roundOn (r : SalsaRegs) : rowRound r = roundOn rowGroups r := rfl

/-! ### The double-round (R106) -/

@[simp] theorem quarterRoundAt_dr (q : Fin 8) (i0 i1 i2 i3 : Fin 16) (r : SalsaRegs) :
    (quarterRoundAt q i0 i1 i2 i3 r).dr = r.dr := rfl
@[simp] theorem quarterRoundAt_bi (q : Fin 8) (i0 i1 i2 i3 : Fin 16) (r : SalsaRegs) :
    (quarterRoundAt q i0 i1 i2 i3 r).bi = r.bi := rfl
@[simp] theorem doubleRound_dr (r : SalsaRegs) : (doubleRound r).dr = r.dr := by
  simp [doubleRound, rowRound, columnRound]
@[simp] theorem doubleRound_bi (r : SalsaRegs) : (doubleRound r).bi = r.bi := by
  simp [doubleRound, rowRound, columnRound]

/-- The matrix `X = (1, 0, .., 0)` of the example in R106. -/
def unitRegs : SalsaRegs := { SalsaRegs.reset with x := SalsaRegs.reset.x.set 0 1 }

theorem rounds_do_not_commute : (rowRound (columnRound unitRegs)).x ≠ (columnRound (rowRound unitRegs)).x := by
  decide

/-- Settles O10: both rounds by `wordsAt_roundOn`, no position standing twice in their lists; `X = (1, 0, .., 0)` shows
that they do not commute. -/
theorem roundsActOnDisjointGroups : Obligations.RoundsActOnDisjointGroups := by
  unfold Obligations.RoundsActOnDisjointGroups
  refine ⟨fun r g hg => ?_, fun r g hg => ?_, fun r => ?_, unitRegs, rounds_do_not_commute⟩
  · rw [columnRound_eq_roundOn]
    exact wordsAt_roundOn columnGroups r g (by decide) hg
  · rw [rowRound_eq_roundOn]
    exact wordsAt_roundOn rowGroups r g (by decide) hg
  · exact ⟨rfl, doubleRound_inp r, doubleRound_ks r, doubleRound_dr r, doubleRound_bi r⟩

/-! ### Ten double-rounds (R107) -/

/-- What the loop of `ROUNDS`, begun on `r`, holds after `k` turns: `X` is the `k`-fold iterate and `DR` is `k`. -/
def DoubleRoundsDone (r : SalsaRegs) (k : Nat) (y : SalsaRegs) : Prop :=
  y.x = (doubleRound^[k] r).x ∧ y.inp = r.inp ∧ y.ks = r.ks ∧ y.dr.val = k

theorem DoubleRoundsDone.succ {r y : SalsaRegs} {k : Nat} (hk : k < 10) (h : DoubleRoundsDone r k y) :
    DoubleRoundsDone r (k + 1) { doubleRound y with dr := ⟨k + 1, Nat.succ_lt_succ hk⟩ } := by
  obtain ⟨hx, hinp, hks, -⟩ := h
  have hx' : (doubleRound y).x = (doubleRound^[k + 1] r).x := by
    rw [Function.iterate_succ_apply']
    exact doubleRound_x_congr _ _ hx
  exact ⟨hx', (doubleRound_inp y).trans hinp, (doubleRound_ks y).trans hks, rfl⟩

theorem rounds_doubleRoundsDone (r : SalsaRegs) : DoubleRoundsDone r 10 (rounds r) := by
  unfold rounds
  exact fold_inv 10 _ _ (DoubleRoundsDone r) ⟨rfl, rfl, rfl, rfl⟩ fun _ hk _ h => h.succ hk

/-- Settles O11: `rounds_doubleRoundsDone`, the counter read as an element of `Fin 11`. -/
theorem roundsAreTenDoubleRounds : Obligations.RoundsAreTenDoubleRounds := by
  unfold Obligations.RoundsAreTenDoubleRounds
  intro r
  obtain ⟨hx, hinp, hks, hdr⟩ := rounds_doubleRoundsDone r
  exact ⟨hx, hinp, hks, Fin.ext hdr⟩

/-! ### Quarter-round, matrix load and block (R101, R105, R110) -/

/-- Settles O8: the four updates of R101 are the definition. -/
theorem quarterRoundFormula : Obligations.QuarterRoundFormula := by
  unfold Obligations.QuarterRoundFormula
  intro a b c d
  rfl

@[simp] theorem loadMatrix_inp (key nonce : List Byte) (ctr : Word64) (r : SalsaRegs) :
    (loadMatrix key nonce ctr r).inp = inputMatrix key nonce ctr := rfl
@[simp] theorem loadMatrix_x (key nonce : List Byte) (ctr : Word64) (r : SalsaRegs) :
    (loadMatrix key nonce ctr r).x = inputMatrix key nonce ctr := rfl
@[simp] theorem loadMatrix_ks (key nonce : List Byte) (ctr : Word64) (r : SalsaRegs) :
    (loadMatrix key nonce ctr r).ks = r.ks := rfl

/-- Settles O12: the matrix loaded is `inputMatrix`, whose words are those of R22, R51 and R52. -/
theorem inputMatrixLayout : Obligations.InputMatrixLayout := by
  unfold Obligations.InputMatrixLayout
  intro key nonce ctr r
  refine ⟨?_, by rw [loadMatrix_x, loadMatrix_inp], loadMatrix_ks key nonce ctr r⟩
  simp [inputMatrix, sigma, keyWord, nonceWord, counterLow, counterHigh]

/-- Settles O15: the composition is the definition, and the rest is `salsa20Block_ks`. -/
theorem keystreamBlockIsPure : Obligations.KeystreamBlockIsPure := by
  unfold Obligations.KeystreamBlockIsPure
  exact fun key nonce ctr r r' => ⟨rfl, salsa20Block_ks key nonce ctr r r'⟩

end Sys2Proof.Machine
end

section
/-! The Salsa20 commands (41_salsa20_stream R120, R125 to R127). Each clause of a rule says which check of the command is
the first to fail, or that none fails and what the effect then is. -/

namespace Sys2Proof.Machine

/-! ### Which check fails first -/

theorem firstFailure_nil : firstFailure [] = none := rfl

/-- A check that fails hides those after it. -/
theorem firstFailure_cons_of_not {b : Bool} {c : Cause} {rest : List (Bool × Cause)} (h : ¬b = true) :
    firstFailure ((b, c) :: rest) = some c := if_neg h

/-- A check that holds leaves the answer to those after it. -/
theorem firstFailure_cons_of_holds {b : Bool} {c : Cause} {rest : List (Bool × Cause)} (h : b = true) :
    firstFailure ((b, c) :: rest) = firstFailure rest := if_pos h

/-- Both footprints of a transfer have one length, so both are examined or neither is (R62). -/
theorem footprintsFit_iff (s : State) (inAddr outAddr length : Nat) :
    (footprintFits s inAddr length && footprintFits s outAddr length) = true ↔
      length = 0 ∨ (FitsBelow s inAddr length ∧ FitsBelow s outAddr length) := by
  rw [Bool.and_eq_true, footprintFits_iff, footprintFits_iff, or_and_left]

/-! ### `SALSA20_KEYSTREAM` (R120) -/

/-- What the registers held does not outlive a command (R43). -/
theorem retireSalsa_with_salsa (s : State) (r : SalsaRegs) :
    retireSalsa { s with salsa := r } = retireSalsa s := rfl

/-- The registers in which the block was computed lose their contents, so the block alone is left of them. -/
theorem effectOf_salsa20Keystream (nonce : List Byte) (counter : Word64) (key : List Byte) (s : State) :
    effectOf (.salsa20Keystream nonce counter key) s = (retireSalsa s, salsa20BlockV key nonce counter) := by
  rw [effectOf, salsa20Block_toList, retireSalsa_with_salsa]

/-- Settles O17: the size check decides, and the effect is `effectOf_salsa20Keystream`. -/
theorem salsa20KeystreamMeaning : Obligations.Salsa20KeystreamMeaning := by
  unfold Obligations.Salsa20KeystreamMeaning
  refine fun s nonce counter key => ⟨fun hsize => ?_, fun hsize => exec_of_failure _ s _ ?_⟩
  · rw [exec_of_checks, effectOf_salsa20Keystream]
    exact firstFailure_cons_of_holds ((keySizesOk_iff key nonce).2 hsize)
  · exact firstFailure_cons_of_not (mt (keySizesOk_iff key nonce).1 hsize)

/-! ### `SALSA20_XOR_IC` and `SALSA20_XOR` (R125, R126) -/

/-- The aliasing rule lets the byte loop be one `MemWrite`: no output byte is written before an input byte it covers
is read (R61). -/
theorem exec_salsa20XorIc_of_checks (s : State) (outAddr inAddr length : Nat) (nonce : List Byte) (counter : Word64)
    (key : List Byte) (hsize : key.length = 32 ∧ nonce.length = 8)
    (hbuf : length = 0 ∨ (FitsBelow s inAddr length ∧ FitsBelow s outAddr length ∧
      (inAddr = outAddr ∨ inAddr + length ≤ outAddr ∨ outAddr + length ≤ inAddr))) :
    exec (.salsa20XorIc outAddr inAddr length nonce counter key) s =
      .next (respond [] (retireSalsa { s with
        mem := memWrite s.mem outAddr (xorIcV (memRead s.mem inAddr length) nonce counter key) })) := by
  have hfit := (footprintsFit_iff s inAddr outAddr length).2 (hbuf.imp_right fun ⟨hin, hout, _⟩ => ⟨hin, hout⟩)
  have halias := (aliasingOk_iff inAddr outAddr length).2 (hbuf.imp_right fun ⟨_, _, h⟩ => h)
  have hchecks : firstFailure (checksOf s (.salsa20XorIc outAddr inAddr length nonce counter key)) = none := by
    rw [checksOf, firstFailure_cons_of_holds ((keySizesOk_iff key nonce).2 hsize), firstFailure_cons_of_holds hfit,
      firstFailure_cons_of_holds halias, firstFailure_nil]
  rw [exec_of_checks _ _ hchecks, effectOf, xorEffect_some outAddr inAddr length nonce counter key s halias]

/-- Settles O18: sizes, fit and aliasing are the first check to fail in turn; with none failing,
`exec_salsa20XorIc_of_checks`. -/
theorem salsa20XorIcMeaning : Obligations.Salsa20XorIcMeaning := by
  unfold Obligations.Salsa20XorIcMeaning
  intro s outAddr inAddr length nonce counter key
  refine ⟨fun hsize => exec_of_failure _ s _ ?_, fun hsize hpos hfit => exec_of_failure _ s _ ?_,
    fun hsize hpos hfit halias => exec_of_failure _ s _ ?_,
    exec_salsa20XorIc_of_checks s outAddr inAddr length nonce counter key⟩
  · exact firstFailure_cons_of_not (mt (keySizesOk_iff key nonce).1 hsize)
  · have hbad := mt (footprintsFit_iff s inAddr outAddr length).1 (not_or.2 ⟨hpos.ne', hfit⟩)
    rw [checksOf, firstFailure_cons_of_holds ((keySizesOk_iff key nonce).2 hsize),
      firstFailure_cons_of_not hbad]
  · have hbad := mt (aliasingOk_iff inAddr outAddr length).1 (not_or.2 ⟨hpos.ne', halias⟩)
    rw [checksOf, firstFailure_cons_of_holds ((keySizesOk_iff key nonce).2 hsize),
      firstFailure_cons_of_holds ((footprintsFit_iff s inAddr outAddr length).2 (.inr hfit)),
      firstFailure_cons_of_not hbad]

theorem exec_salsa20Xor_eq (outAddr inAddr length : Nat) (nonce key : List Byte) (s : State) :
    exec (.salsa20Xor outAddr inAddr length nonce key) s =
      exec (.salsa20XorIc outAddr inAddr length nonce 0 key) s := rfl

/-- Settles O19: both commands run one body, so the effect is that of `exec_salsa20XorIc_of_checks` at counter 0. -/
theorem salsa20XorMeaning : Obligations.Salsa20XorMeaning := by
  unfold Obligations.Salsa20XorMeaning
  intro s outAddr inAddr length nonce key
  refine ⟨exec_salsa20Xor_eq outAddr inAddr length nonce key s, fun hsize hbuf => ?_⟩
  rw [exec_salsa20Xor_eq]
  exact exec_salsa20XorIc_of_checks s outAddr inAddr length nonce 0 key hsize hbuf

/-! ### `SALSA20_STREAM` (R127) -/

/-- Settles O20: sizes and fit are the first check to fail in turn; the input being read from nowhere, `xorEffect_none`
needs no aliasing check. -/
theorem salsa20StreamMeaning : Obligations.Salsa20StreamMeaning := by
  unfold Obligations.Salsa20StreamMeaning
  refine fun s outAddr length nonce key => ⟨fun hsize => exec_of_failure _ s _ ?_,
    fun hsize hpos hfit => exec_of_failure _ s _ ?_, fun hsize hfit => ?_⟩
  · exact firstFailure_cons_of_not (mt (keySizesOk_iff key nonce).1 hsize)
  · have hbad := mt (footprintFits_iff s outAddr length).1 (not_or.2 ⟨hpos.ne', hfit⟩)
    rw [checksOf, firstFailure_cons_of_holds ((keySizesOk_iff key nonce).2 hsize),
      firstFailure_cons_of_not hbad]
  · have hchecks : firstFailure (checksOf s (.salsa20Stream outAddr length nonce key)) = none := by
      rw [checksOf, firstFailure_cons_of_holds ((keySizesOk_iff key nonce).2 hsize),
        firstFailure_cons_of_holds ((footprintFits_iff s outAddr length).2 hfit), firstFailure_nil]
    rw [exec_of_checks _ _ hchecks, effectOf, xorEffect_none]

end Sys2Proof.Machine
end

section
/-! The SHA-512 datapath (42_sha512_compress R141 to R155). The bitwise functions are read bit by bit, the loops of the
schedule and of the steps turn by turn; the tables are the spec's own numbers and are checked against the primes. -/

namespace Sys2Proof.Machine

open Sys2Proof.Laws

/-! ### Choose, majority and the four sigma functions (R143 to R148) -/

theorem getLsbD_not64 (a : Word64) (i : Nat) (hi : i < 64) : (not64 a).getLsbD i = !a.getLsbD i := by
  simp [not64, hi]

theorem getLsbD_shr64 (a : Word64) (n i : Nat) : (shr64 a n).getLsbD i = a.getLsbD (i + n) := by
  rw [shr64, BitVec.getLsbD_ushiftRight, Nat.add_comm]

/-- `getLsbD_rotr64` from the receiving end: bit `i` of the rotated word was bit `(i + n) mod 64`. -/
theorem getLsbD_rotr64_of_dest (a : Word64) (n i : Nat) (h0 : 0 < n) (hn : n < 64) (hi : i < 64) :
    (rotr64 a n).getLsbD i = a.getLsbD ((i + n) % 64) := by
  have hback : ((i + n) % 64 + 64 - n) % 64 = i := by omega
  rw [← getLsbD_rotr64 a n ((i + n) % 64) h0 hn (Nat.mod_lt _ (by decide)), hback]

theorem getLsbD_ch (x y z : Word64) (i : Nat) (hi : i < 64) :
    (ch x y z).getLsbD i = (if x.getLsbD i then y.getLsbD i else z.getLsbD i) := by
  rw [ch, getLsbD_xor64, getLsbD_and64, getLsbD_and64, getLsbD_not64 x i hi]
  cases x.getLsbD i with
  | true => simp
  | false => simp

/-- The exclusive or of the three pairwise conjunctions of three bits is their majority. -/
theorem xor_and_pairs_eq_majority (a b c : Bool) :
    ((a && b) ^^ (a && c) ^^ (b && c)) = decide (2 ≤ a.toNat + b.toNat + c.toNat) := by
  revert a b c
  decide

theorem getLsbD_maj (x y z : Word64) (i : Nat) :
    (maj x y z).getLsbD i =
      decide (2 ≤ (x.getLsbD i).toNat + (y.getLsbD i).toNat + (z.getLsbD i).toNat) := by
  rw [maj, getLsbD_xor64, getLsbD_xor64, getLsbD_and64, getLsbD_and64, getLsbD_and64, xor_and_pairs_eq_majority]

/-- Settles O25: `getLsbD_ch` and `getLsbD_maj`. -/
theorem chooseAndMajorityAreBitwise : Obligations.ChooseAndMajorityAreBitwise := by
  unfold Obligations.ChooseAndMajorityAreBitwise
  exact ⟨getLsbD_ch, fun x y z i _ => getLsbD_maj x y z i⟩

/-- Bit `i` of an exclusive or of three rotations. -/
theorem getLsbD_xor_rotr64 (x : Word64) (p q r i : Nat) (hp : 0 < p ∧ p < 64) (hq : 0 < q ∧ q < 64)
    (hr : 0 < r ∧ r < 64) (hi : i < 64) :
    (xor64 (xor64 (rotr64 x p) (rotr64 x q)) (rotr64 x r)).getLsbD i =
      (x.getLsbD ((i + p) % 64) ^^ x.getLsbD ((i + q) % 64) ^^ x.getLsbD ((i + r) % 64)) := by
  rw [getLsbD_xor64, getLsbD_xor64, getLsbD_rotr64_of_dest x p i hp.1 hp.2 hi,
    getLsbD_rotr64_of_dest x q i hq.1 hq.2 hi, getLsbD_rotr64_of_dest x r i hr.1 hr.2 hi]

/-- Bit `i` of an exclusive or of two rotations and a shift. -/
theorem getLsbD_xor_rotr64_shr64 (x : Word64) (p q r i : Nat) (hp : 0 < p ∧ p < 64) (hq : 0 < q ∧ q < 64)
    (hi : i < 64) :
    (xor64 (xor64 (rotr64 x p) (rotr64 x q)) (shr64 x r)).getLsbD i =
      (x.getLsbD ((i + p) % 64) ^^ x.getLsbD ((i + q) % 64) ^^ x.getLsbD (i + r)) := by
  rw [getLsbD_xor64, getLsbD_xor64, getLsbD_rotr64_of_dest x p i hp.1 hp.2 hi,
    getLsbD_rotr64_of_dest x q i hq.1 hq.2 hi, getLsbD_shr64]

/-- Settles O26: the amounts of the four functions, put into the two forms a sigma function has. -/
theorem sigmaFunctionsBitByBit : Obligations.SigmaFunctionsBitByBit := by
  unfold Obligations.SigmaFunctionsBitByBit
  intro x i hi
  exact ⟨getLsbD_xor_rotr64 x 28 34 39 i (by decide) (by decide) (by decide) hi,
    getLsbD_xor_rotr64 x 14 18 41 i (by decide) (by decide) (by decide) hi,
    getLsbD_xor_rotr64_shr64 x 1 8 7 i (by decide) (by decide) hi,
    getLsbD_xor_rotr64_shr64 x 19 61 6 i (by decide) (by decide) hi⟩

/-! ### The message schedule (R149, R150) -/

/-- What the loop of `SCHED_LOAD` holds after `k` turns: the first `k` words of the block. -/
def BlockLoaded (block : List Byte) (k : Nat) (x : ShaRegs) : Prop :=
  ∀ (t : Nat) (_ : t < 80), t < k → x.w[t] = be64Load block (8 * t)

theorem BlockLoaded.succ {block : List Byte} {k : Nat} {x : ShaRegs} (hk : k < 80) (h : BlockLoaded block k x) :
    BlockLoaded block (k + 1) { x with w := x.w.set k (be64Load block (8 * k)) } := by
  intro t ht htk
  obtain rfl | hlt := Nat.eq_or_lt_of_le (Nat.le_of_lt_succ htk)
  · exact Vector.getElem_set_self hk
  · exact (Vector.getElem_set_ne hk ht hlt.ne').trans (h t ht hlt)

theorem schedLoad_blockLoaded (block : List Byte) (r : ShaRegs) : BlockLoaded block 16 (schedLoad block r) := by
  unfold schedLoad
  exact fold_inv 16 _ r (BlockLoaded block) (fun t _ ht => absurd ht (Nat.not_lt_zero t))
    fun k hk _ h => h.succ (by omega)

/-- The recurrence for `W[j + 16]` reads no word above `W[j + 14]`. -/
theorem schedWord_set_above (w : Vector Word64 80) (v : Word64) (j p : Nat) (hj : j < 64) (hp : p < 80)
    (h : j + 14 < p) : schedWord (w.set p v) j hj = schedWord w j hj := by
  have hread : ∀ (q : Nat) (hq : q < 80), q ≤ j + 14 → (w.set p v)[q] = w[q] := fun q hq hle =>
    Vector.getElem_set_ne hp hq (by omega)
  rw [schedWord, hread (j + 14) _ (by omega), hread (j + 9) _ (by omega), hread (j + 1) _ (by omega),
    hread j _ (by omega), schedWord]

/-- What the loop of `SCHED_EXPAND`, begun on `r`, holds after `k` turns: the sixteen loaded words, and `k` words that
satisfy the recurrence. -/
def ScheduleExpanded (r : ShaRegs) (k : Nat) (x : ShaRegs) : Prop :=
  (∀ (t : Nat) (_ : t < 16), x.w[t] = r.w[t]) ∧ ∀ (t : Nat) (ht : t < 64), t < k → x.w[t + 16] = schedWord x.w t ht

theorem ScheduleExpanded.succ {r x : ShaRegs} {k : Nat} (hk : k < 64) (h : ScheduleExpanded r k x) :
    ScheduleExpanded r (k + 1) { x with w := x.w.set (k + 16) (schedWord x.w k hk) } := by
  obtain ⟨hload, hrec⟩ := h
  have hset : k + 16 < 80 := by omega
  refine ⟨fun t ht => (Vector.getElem_set_ne hset _ (by omega)).trans (hload t ht), fun t ht htk => ?_⟩
  rw [schedWord_set_above _ _ t (k + 16) ht hset (by omega)]
  obtain rfl | hlt := Nat.eq_or_lt_of_le (Nat.le_of_lt_succ htk)
  · exact Vector.getElem_set_self hset
  · exact (Vector.getElem_set_ne hset _ (by omega)).trans (hrec t ht hlt)

theorem schedExpand_scheduleExpanded (r : ShaRegs) : ScheduleExpanded r 64 (schedExpand r) := by
  unfold schedExpand
  exact fold_inv 64 _ r (ScheduleExpanded r) ⟨fun _ _ => rfl, fun t _ ht => absurd ht (Nat.not_lt_zero t)⟩
    fun _ hk _ h => h.succ hk

/-- Settles O27: the expansion keeps the words of the load, and its last turn leaves the recurrence everywhere. -/
theorem messageScheduleRecurrence : Obligations.MessageScheduleRecurrence := by
  unfold Obligations.MessageScheduleRecurrence
  intro block r
  obtain ⟨hload, hrec⟩ := schedExpand_scheduleExpanded (schedLoad block r)
  exact ⟨fun t => (hload t t.isLt).trans (schedLoad_blockLoaded block r t (by omega) t.isLt),
    fun t ht => hrec t ht ht⟩

/-! ### Steps, add-back and the whole compression (R151 to R155) -/

/-- Settles O30: the context by `compress_ctx`, and the working variables do not depend on what the registers held. -/
theorem compressionIsPure : Obligations.CompressionIsPure := by
  unfold Obligations.CompressionIsPure
  exact fun block e r => ⟨compress_ctx block e,
    addBack_congr _ _ e.ctx.h (compressRegs_congr block e.ctx.h r ShaRegs.reset)⟩

/-- Settles O28: the formulas of R151, R153 and R154 are the definitions. -/
theorem stepAndAddBackFormulas : Obligations.StepAndAddBackFormulas := by
  unfold Obligations.StepAndAddBackFormulas
  refine ⟨fun hash r => ?_, fun t r => ?_, fun r hash => rfl⟩
  · exact ⟨rfl, rfl, rfl, rfl, rfl, rfl, rfl, rfl, rfl⟩
  · exact ⟨rfl, rfl, rfl, rfl, rfl, rfl, rfl, rfl, rfl, rfl, rfl, rfl⟩

theorem shaSteps_eq_foldl (r : ShaRegs) :
    shaSteps r = (List.finRange 80).foldl (fun r t => shaStep t r) { r with t := 0 } :=
  Nat.fold_eq_finRange_foldl 80 _ _

/-- `T` counts the turns of the loop (R26). -/
theorem shaSteps_t (r : ShaRegs) : (shaSteps r).t = 80 := by
  unfold shaSteps
  exact Fin.ext (fold_inv 80 _ _ (fun (k : Nat) (x : ShaRegs) => x.t.val = k) rfl fun _ _ _ _ => rfl)

/-- Settles O29: a counted loop is the fold over its indices, and `T` is the number of its turns. -/
theorem eightyStepsAscending : Obligations.EightyStepsAscending := by
  unfold Obligations.EightyStepsAscending
  exact fun r => ⟨shaSteps_eq_foldl r, shaSteps_t r⟩

/-! ### The tables `IV` and `K` (R141, R142) -/

/-- The first eighty primes. -/
def firstPrimes : List Nat :=
  [2, 3, 5, 7, 11, 13, 17, 19, 23, 29, 31, 37, 41, 43, 47, 53, 59, 61, 67, 71, 73, 79, 83, 89, 97, 101, 103, 107, 109,
    113, 127, 131, 137, 139, 149, 151, 157, 163, 167, 173, 179, 181, 191, 193, 197, 199, 211, 223, 227, 229, 233, 239,
    241, 251, 257, 263, 269, 271, 277, 281, 283, 293, 307, 311, 313, 317, 331, 337, 347, 349, 353, 359, 367, 373, 379,
    383, 389, 397, 401, 409]

/-- Trial division by the numbers up to 20. -/
def passesTrialDivision (p : Nat) : Bool :=
  decide (2 ≤ p) && (List.range 21).all fun m => decide (m < 2 ∨ p ≤ m ∨ p % m ≠ 0)

/-- Below 21 squared, a number that is not prime has a divisor up to 20. -/
theorem prime_iff_passesTrialDivision (p : Nat) (hp : p < 21 ^ 2) : p.Prime ↔ passesTrialDivision p = true := by
  have hsqrt : Nat.sqrt p < 21 := Nat.sqrt_lt'.2 hp
  simp only [passesTrialDivision, Bool.and_eq_true, decide_eq_true_eq, List.all_eq_true, List.mem_range]
  constructor
  · intro hprime
    obtain ⟨htwo, hdvd⟩ := Nat.prime_def_lt'.1 hprime
    refine ⟨htwo, fun m _ => ?_⟩
    by_contra! hm
    exact hdvd m hm.1 hm.2.1 (Nat.dvd_of_mod_eq_zero hm.2.2)
  · rintro ⟨htwo, hdiv⟩
    refine Nat.prime_def_le_sqrt.2 ⟨htwo, fun m hm hle hdvd => ?_⟩
    have hmp : m < p := hle.trans_lt (Nat.sqrt_lt_self htwo)
    have := hdiv m (hle.trans_lt hsqrt)
    have := Nat.mod_eq_zero_of_dvd hdvd
    omega

/-- The filter of the statement, with a test of primality that is quick to evaluate. -/
theorem primes_below_410 : ((List.range 410).filter fun p => decide p.Prime) = firstPrimes := by
  have hcongr : ((List.range 410).filter fun p => decide p.Prime) = (List.range 410).filter passesTrialDivision :=
    List.filter_congr fun p hp => Bool.eq_iff_iff.2
      (decide_eq_true_iff.trans (prime_iff_passesTrialDivision p (by have := List.mem_range.1 hp; omega)))
  rw [hcongr]
  decide +kernel

/-- `K[4r + c]` is field `c`, from the left, of row `r` (R142). -/
theorem roundConstant_eq_field (r : Fin 20) (c : Nat) (hc : c < 4) :
    roundConstant ⟨4 * r + c, by omega⟩ = roundConstantRows[r].extractLsb' (64 * (3 - c)) 64 := by
  have hdiv : (4 * r.val + c) / 4 = r := by omega
  have hmod : (4 * r.val + c) % 4 = c := by omega
  simp only [roundConstant, hdiv, hmod, Fin.getElem_fin]

/-- The four words read from a row of the table, joined again, are the row. -/
theorem roundConstant_append_row (r : Fin 20) :
    roundConstant ⟨4 * r, by omega⟩ ++ roundConstant ⟨4 * r + 1, by omega⟩ ++ roundConstant ⟨4 * r + 2, by omega⟩ ++
      roundConstant ⟨4 * r + 3, by omega⟩ = roundConstantRows[r] := by
  have hfirst : roundConstant ⟨4 * r, by omega⟩ = roundConstantRows[r].extractLsb' 192 64 :=
    roundConstant_eq_field r 0 (by decide)
  rw [hfirst, roundConstant_eq_field r 1 (by decide), roundConstant_eq_field r 2 (by decide),
    roundConstant_eq_field r 3 (by decide)]
  simp only [BitVec.extractLsb'_append_extractLsb'_eq_extractLsb']
  exact BitVec.extractLsb'_eq_self

/-- `word` is the first 64 bits of the fractional part of the `n`-th root of `p`: with `q` the root's integer part,
`2 ^ 64 * q + word` is the root of `p * 2 ^ (64 * n)` rounded down. -/
abbrev IsRootFraction (n p word : Nat) : Prop :=
  ∃ q < 8, (2 ^ 64 * q + word) ^ n ≤ p * 2 ^ (64 * n) ∧ p * 2 ^ (64 * n) < (2 ^ 64 * q + word + 1) ^ n

theorem iv_isRootFraction : ∀ i : Fin 8, IsRootFraction 2 (firstPrimes.getD i 0) iv[i].toNat := by
  decide +kernel

theorem roundConstant_isRootFraction :
    ∀ t : Fin 80, IsRootFraction 3 (firstPrimes.getD t 0) (roundConstant t).toNat := by
  decide +kernel

/-- Settles O24: `IV` is the printed words; the rows of `K` by `roundConstant_append_row`; the primes are
`firstPrimes`, whose roots the two lemmas above compare with the tables by exact arithmetic. -/
theorem constantTables : Obligations.ConstantTables := by
  unfold Obligations.ConstantTables
  rw [primes_below_410]
  refine ⟨rfl, ?_, rfl, iv_isRootFraction, roundConstant_isRootFraction⟩
  simp only [roundConstant_append_row]
  decide +kernel

end Sys2Proof.Machine
end

section
/-! The SHA-512 commands (43_sha512_stream R173 to R177, R182, R185). The layout of the padding comes first;
then, for each command, which check is the first to fail and what its effect leaves; the table of phases is read off
from these. -/

namespace Sys2Proof.Machine

/-! ### The padding (R175, R176) -/

@[simp] theorem zeros_length (n : Nat) : (zeros n).length = n := List.length_replicate

@[simp] theorem be128Store_length (v : Word128) : (be128Store v).length = 16 := rfl

/-- The zeros of the padding fill its last block up to the sixteen bytes of the bit length. -/
theorem padZeros_fills (n : Nat) (hn : n ≤ 127) : n + 1 + padZeros n + 16 = if n ≤ 111 then 128 else 256 := by
  unfold padZeros
  split <;> omega

theorem pad_length (tail : List Byte) (bits : Word128) :
    (pad tail bits).length = tail.length + 1 + padZeros tail.length + 16 := by
  simp only [pad, List.length_append, List.length_singleton, zeros_length, be128Store_length]

theorem pad_length_of_le (tail : List Byte) (bits : Word128) (h : tail.length ≤ 127) :
    (pad tail bits).length = if tail.length ≤ 111 then 128 else 256 := by
  rw [pad_length, padZeros_fills tail.length h]

/-- The padding cut after the tail. -/
theorem pad_eq_tail_append (tail : List Byte) (bits : Word128) :
    pad tail bits = tail ++ 0x80 :: (zeros (padZeros tail.length) ++
      be128Store (add128 bits (BitVec.ofNat 128 (8 * tail.length)))) := by
  simp [pad]

theorem pad_getElem?_tail (tail : List Byte) (bits : Word128) (p : Nat) (h : p < tail.length) :
    (pad tail bits)[p]? = some tail[p] := by
  rw [pad_eq_tail_append, List.getElem?_append_left h, List.getElem?_eq_getElem h]

theorem pad_getElem?_tail_length (tail : List Byte) (bits : Word128) : (pad tail bits)[tail.length]? = some 0x80 := by
  rw [pad_eq_tail_append, List.getElem?_append_right le_rfl, Nat.sub_self, List.getElem?_cons_zero]

theorem pad_getElem?_zeros (tail : List Byte) (bits : Word128) (p : Nat) (hlo : tail.length < p)
    (hhi : p < tail.length + 1 + padZeros tail.length) : (pad tail bits)[p]? = some 0 := by
  obtain ⟨q, rfl⟩ := Nat.exists_eq_add_of_lt hlo
  have hq : q < padZeros tail.length := by omega
  have hsub : tail.length + q + 1 - tail.length = q + 1 := by omega
  rw [pad_eq_tail_append, List.getElem?_append_right (by omega), hsub, List.getElem?_cons_succ,
    List.getElem?_append_left (by rwa [zeros_length]), zeros, List.getElem?_replicate_of_lt hq]

theorem pad_drop_zeros (tail : List Byte) (bits : Word128) :
    (pad tail bits).drop (tail.length + 1 + padZeros tail.length) =
      be128Store (add128 bits (BitVec.ofNat 128 (8 * tail.length))) :=
  List.drop_left' (by simp only [List.length_append, List.length_singleton, zeros_length])

/-- Settles O31: the four parts of `pad` in turn, placed by `padZeros_fills`. -/
theorem paddingLayout : Obligations.PaddingLayout := by
  unfold Obligations.PaddingLayout
  intro tail bits hlen total size
  have hsize : tail.length + 1 + padZeros tail.length = size - 16 :=
    Nat.eq_sub_of_add_eq (padZeros_fills tail.length hlen)
  rw [← hsize]
  exact ⟨pad_length_of_le tail bits hlen, pad_getElem?_tail tail bits, pad_getElem?_tail_length tail bits,
    pad_getElem?_zeros tail bits, pad_drop_zeros tail bits⟩

/-! ### Effects of the SHA-512 commands -/

/-- What the working registers held does not outlive a command (R43). -/
theorem retireSha_with_sha (s : State) (r : ShaRegs) : retireSha { s with sha := r } = retireSha s := rfl

/-- Of a body run on a context, the context it leaves is all that is left. -/
theorem onContext_eq (k : Nat) (body : ShaEngine → ShaEngine) (s : State) :
    onContext k body s =
      (retireSha { s with ctxs := s.ctxs.set k (body { regs := s.sha, ctx := ctxAt s k }).ctx }, []) := rfl

/-- `n` blocks are no bytes exactly when `n = 0`. -/
theorem blocksFit_iff (s : State) (a n : Nat) :
    footprintFits s a (128 * n) = true ↔ n = 0 ∨ FitsBelow s a (128 * n) := by
  simp only [footprintFits_iff, Nat.mul_eq_zero, OfNat.ofNat_ne_zero, false_or]

/-! ### `SHA512_UPDATE_MULTI` and `SHA512_UPDATE` (R173, R174) -/

theorem effectOf_sha512UpdateMulti (k inAddr n : Nat) (s : State) :
    effectOf (.sha512UpdateMulti k inAddr n) s =
      (retireSha { s with
        ctxs := s.ctxs.set k { ctxAt s k with
          phase := .absorbing, h := absorbV (ctxAt s k).h (memRead s.mem inAddr (128 * n)) n,
          len := add128 (ctxAt s k).len (BitVec.ofNat 128 (1024 * n)) } }, []) := by
  rw [effectOf, onContext_eq, updateMultiBody_ctx, add128]

/-- Settles O33: context, order and fit are the first check to fail in turn; with none failing,
`effectOf_sha512UpdateMulti`. -/
theorem sha512UpdateMultiMeaning : Obligations.Sha512UpdateMultiMeaning := by
  unfold Obligations.Sha512UpdateMultiMeaning
  intro s k inAddr n c
  refine ⟨fun hk => exec_of_failure _ s _ ?_, fun hk hphase => exec_of_failure _ s _ ?_,
    fun hk hphase hn hfit => exec_of_failure _ s _ ?_, fun hk hphase hfit => ?_⟩
  · exact firstFailure_cons_of_not (mt (ctxOk_iff s k).1 hk)
  · rw [checksOf, firstFailure_cons_of_holds ((ctxOk_iff s k).2 hk),
      firstFailure_cons_of_not (mt (absorbsIn_iff c.phase).1 hphase)]
  · have hbad := mt (blocksFit_iff s inAddr n).1 (not_or.2 ⟨hn.ne', hfit⟩)
    rw [checksOf, firstFailure_cons_of_holds ((ctxOk_iff s k).2 hk),
      firstFailure_cons_of_holds ((absorbsIn_iff c.phase).2 hphase), firstFailure_cons_of_not hbad]
  · have hchecks : firstFailure (checksOf s (.sha512UpdateMulti k inAddr n)) = none := by
      rw [checksOf, firstFailure_cons_of_holds ((ctxOk_iff s k).2 hk),
        firstFailure_cons_of_holds ((absorbsIn_iff c.phase).2 hphase),
        firstFailure_cons_of_holds ((blocksFit_iff s inAddr n).2 hfit), firstFailure_nil]
    rw [exec_of_checks _ _ hchecks, effectOf_sha512UpdateMulti]

theorem exec_sha512Update_eq (k inAddr : Nat) (s : State) :
    exec (.sha512Update k inAddr) s = exec (.sha512UpdateMulti k inAddr 1) s := rfl

/-- A string of one block is its own first block. -/
theorem absorbV_one (hash : Vector Word64 8) (b : List Byte) (hb : b.length = 128) :
    absorbV hash b 1 = compressV hash b := by
  rw [absorbV_succ, absorbV_zero, blockAt, Nat.mul_zero, List.drop_zero, List.take_of_length_le hb.le]

/-- Settles O34: both commands run one body, so the effect is that of O33 on one block. -/
theorem sha512UpdateMeaning : Obligations.Sha512UpdateMeaning := by
  unfold Obligations.Sha512UpdateMeaning
  intro s k inAddr c
  refine ⟨exec_sha512Update_eq k inAddr s, fun hk hphase hfit => ?_⟩
  obtain ⟨-, -, -, hmulti⟩ := sha512UpdateMultiMeaning s k inAddr 1
  have hlen : BitVec.ofNat 128 (1024 * 1) = 1024 := rfl
  rw [exec_sha512Update_eq, hmulti hk hphase (.inr hfit), absorbV_one _ _ (memRead_length _ _ _), hlen]

/-! ### `SHA512_UPDATE_LAST` (R177) -/

/-- A tail of at most 127 bytes is padded to one block or to two. -/
theorem pad_blocks (tail : List Byte) (bits : Word128) (h : tail.length ≤ 127) :
    (pad tail bits).length / 128 = if tail.length ≤ 111 then 1 else 2 := by
  rw [pad_length_of_le tail bits h]
  split <;> rfl

theorem effectOf_sha512UpdateLast (k inAddr length : Nat) (s : State) (h : length ≤ 127) :
    effectOf (.sha512UpdateLast k inAddr length) s =
      (retireSha { s with
        ctxs := s.ctxs.set k {
          phase := .padded,
          h := absorbV (ctxAt s k).h (pad (memRead s.mem inAddr length) (ctxAt s k).len)
            (if length ≤ 111 then 1 else 2),
          len := add128 (ctxAt s k).len (BitVec.ofNat 128 (8 * length)), buf := [] } }, []) := by
  have htail : (memRead s.mem inAddr length).length = length := memRead_length _ _ _
  rw [effectOf, onContext_eq, updateLastBody_ctx, pad_blocks _ _ (htail.le.trans h), htail, add128]

/-- Settles O35: context, size, order and fit are the first check to fail in turn; with none failing,
`effectOf_sha512UpdateLast`. -/
theorem sha512UpdateLastMeaning : Obligations.Sha512UpdateLastMeaning := by
  unfold Obligations.Sha512UpdateLastMeaning
  intro s k inAddr length c p
  refine ⟨fun hk => exec_of_failure _ s _ ?_, fun hk hsize => exec_of_failure _ s _ ?_,
    fun hk hsize hphase => exec_of_failure _ s _ ?_, fun hk hsize hphase hpos hfit => exec_of_failure _ s _ ?_,
    fun hk hsize hphase hfit => ?_⟩
  · exact firstFailure_cons_of_not (mt (ctxOk_iff s k).1 hk)
  · have hbad := mt (tailSizeOk_iff length).1 hsize.not_ge
    rw [checksOf, firstFailure_cons_of_holds ((ctxOk_iff s k).2 hk), firstFailure_cons_of_not hbad]
  · rw [checksOf, firstFailure_cons_of_holds ((ctxOk_iff s k).2 hk),
      firstFailure_cons_of_holds ((tailSizeOk_iff length).2 hsize),
      firstFailure_cons_of_not (mt (absorbsIn_iff c.phase).1 hphase)]
  · have hbad := mt (footprintFits_iff s inAddr length).1 (not_or.2 ⟨hpos.ne', hfit⟩)
    rw [checksOf, firstFailure_cons_of_holds ((ctxOk_iff s k).2 hk),
      firstFailure_cons_of_holds ((tailSizeOk_iff length).2 hsize),
      firstFailure_cons_of_holds ((absorbsIn_iff c.phase).2 hphase), firstFailure_cons_of_not hbad]
  · have hchecks : firstFailure (checksOf s (.sha512UpdateLast k inAddr length)) = none := by
      rw [checksOf, firstFailure_cons_of_holds ((ctxOk_iff s k).2 hk),
        firstFailure_cons_of_holds ((tailSizeOk_iff length).2 hsize),
        firstFailure_cons_of_holds ((absorbsIn_iff c.phase).2 hphase),
        firstFailure_cons_of_holds ((footprintFits_iff s inAddr length).2 hfit), firstFailure_nil]
    rw [exec_of_checks _ _ hchecks, effectOf_sha512UpdateLast k inAddr length s hsize]

/-! ### `SHA512_HASH` (R182) -/

/-- The context of the run is gone with the registers; only the digest is left. -/
theorem effectOf_sha512Hash (inAddr length : Nat) (s : State) :
    effectOf (.sha512Hash inAddr length) s = (retireSha s, sha512V (memRead s.mem inAddr length)) := by
  rw [effectOf, digest_hashEngine, retireSha_with_sha]

/-- Settles O37: the fit check decides, and the effect is `effectOf_sha512Hash`. -/
theorem sha512HashMeaning : Obligations.Sha512HashMeaning := by
  unfold Obligations.Sha512HashMeaning
  refine fun s inAddr length => ⟨fun hpos hfit => exec_of_failure _ s _ ?_, fun hfit => ?_⟩
  · exact firstFailure_cons_of_not (mt (footprintFits_iff s inAddr length).1 (not_or.2 ⟨hpos.ne', hfit⟩))
  · rw [exec_of_checks, effectOf_sha512Hash]
    exact firstFailure_cons_of_holds ((footprintFits_iff s inAddr length).2 hfit)

/-! ### The table of phases (R185) -/

theorem exec_sha512Init_of_ctx (k : Nat) (s : State) (hk : k < nctx s) :
    exec (.sha512Init k) s = .next (respond [] (setCtx s k initBody)) :=
  exec_of_checks _ s (firstFailure_cons_of_holds ((ctxOk_iff s k).2 hk))

theorem exec_sha512Finish_of_padded (k : Nat) (s : State) (hk : k < nctx s) (hphase : (ctxAt s k).phase = .padded) :
    exec (.sha512Finish k) s =
      .next (respond (digest (ctxAt s k).h) (setCtx s k (finishBody (ctxAt s k)))) := by
  refine exec_of_checks _ s ?_
  rw [checksOf, firstFailure_cons_of_holds ((ctxOk_iff s k).2 hk),
    firstFailure_cons_of_holds ((finishesIn_iff _).2 hphase), firstFailure_nil]

theorem exec_sha512Finish_of_not_padded (k : Nat) (s : State) (hk : k < nctx s)
    (hphase : (ctxAt s k).phase ≠ .padded) :
    exec (.sha512Finish k) s = .next (takeException .orderViolation s) := by
  refine exec_of_failure _ s _ ?_
  rw [checksOf, firstFailure_cons_of_holds ((ctxOk_iff s k).2 hk),
    firstFailure_cons_of_not (mt (finishesIn_iff _).1 hphase)]

/-- An entry of the table of R185: where the command is legal it leaves context `k` in phase `p` and records no fault;
elsewhere it takes `OrderViolation`. -/
abbrev PhaseEntry (s : State) (k : Nat) (i : Instr) (legal : Bool) (p : Phase) : Prop :=
  ∃ t, exec i s = .next t ∧
    if legal then (ctxAt t k).phase = p ∧ t.faults = s.faults else t = takeException .orderViolation s

/-- A command that sets context `k` where it is legal, whatever else it does, fills its entry with the phase set. -/
theorem phaseEntry_of_exec {s t : State} {k : Nat} {i : Instr} {legal : Bool} {c : Context} (hk : k < nctx s)
    (hlegal : legal = true → exec i s = .next t)
    (hillegal : ¬legal = true → exec i s = .next (takeException .orderViolation s))
    (hctxs : t.ctxs = s.ctxs.set k c) (hfaults : t.faults = s.faults) :
    PhaseEntry s k i legal c.phase := by
  have hc : ctxAt t k = c := by
    rw [← ctxAt_setCtx_self s k c hk, ctxAt, ctxAt, hctxs, setCtx_ctxs]
  by_cases h : legal = true
  · exact ⟨t, hlegal h, by rw [if_pos h, hc]; exact ⟨rfl, hfaults⟩⟩
  · exact ⟨_, hillegal h, by rw [if_neg h]⟩

/-- Settles O40: each entry by `phaseEntry_of_exec` from the clauses on order and effect of its command. -/
theorem phaseTransitions : Obligations.PhaseTransitions := by
  unfold Obligations.PhaseTransitions
  intro s k inAddr n length hk hsize hfitOne hfitBlocks hfitTail absorbs after
  have habsorbs : absorbs = true ↔ (ctxAt s k).phase = .fresh ∨ (ctxAt s k).phase = .absorbing := by
    simp [absorbs]
  obtain ⟨-, horderOne, -, -⟩ := sha512UpdateMultiMeaning s k inAddr 1
  obtain ⟨-, hone⟩ := sha512UpdateMeaning s k inAddr
  obtain ⟨-, horderMulti, -, hmulti⟩ := sha512UpdateMultiMeaning s k inAddr n
  obtain ⟨-, -, horderLast, -, hlast⟩ := sha512UpdateLastMeaning s k inAddr length
  obtain ⟨-, hhash⟩ := sha512HashMeaning s inAddr length
  refine ⟨?init, ?update, ?updateMulti, ?updateLast, ?finish, ?hash⟩
  case init =>
    exact phaseEntry_of_exec hk (fun _ => exec_sha512Init_of_ctx k s hk) (absurd rfl) rfl rfl
  case update =>
    exact phaseEntry_of_exec hk (fun h => hone hk (habsorbs.1 h) hfitOne)
      (fun h => horderOne hk (mt habsorbs.2 h)) rfl rfl
  case updateMulti =>
    exact phaseEntry_of_exec hk (fun h => hmulti hk (habsorbs.1 h) (.inr hfitBlocks))
      (fun h => horderMulti hk (mt habsorbs.2 h)) rfl rfl
  case updateLast =>
    exact phaseEntry_of_exec hk (fun h => hlast hk hsize (habsorbs.1 h) (.inr hfitTail))
      (fun h => horderLast hk hsize (mt habsorbs.2 h)) rfl rfl
  case finish =>
    exact phaseEntry_of_exec hk (fun h => exec_sha512Finish_of_padded k s hk (of_decide_eq_true h))
      (fun h => exec_sha512Finish_of_not_padded k s hk (mt decide_eq_true h)) rfl rfl
  case hash =>
    exact ⟨_, hhash (.inr hfitTail), rfl⟩

end Sys2Proof.Machine
end

section
/-! Which exception a command takes (60_exceptions R209, R210). The checks of a command stand in the order of the
priority, so the failing check of the highest priority is the first to fail; and a check of each cause fails exactly when
the command breaks the contract of that cause. -/

namespace Sys2Proof.Machine

/-! ### The order of the checks (R209) -/

/-- The codes of R90 rise in the order of R209. -/
theorem checksOf_pairwise (s : State) (i : Instr) :
    (checksOf s i).Pairwise fun p q => causeCode p.2 ≤ causeCode q.2 := by
  cases i <;> simp [checksOf, causeCode]

theorem causeCode_injective : Function.Injective causeCode := by
  intro c d
  cases c <;> cases d <;> decide

/-- Among checks in the order of their codes, a failing one is the first when none of a lower code fails. -/
theorem firstFailure_of_pairwise {checks : List (Bool × Cause)} {c : Cause}
    (hsorted : checks.Pairwise fun p q => causeCode p.2 ≤ causeCode q.2) (hc : (false, c) ∈ checks)
    (hlower : ∀ d, causeCode d < causeCode c → (false, d) ∉ checks) : firstFailure checks = some c := by
  induction checks with
  | nil => simp at hc
  | cons p rest ih =>
    obtain ⟨b, d⟩ := p
    obtain ⟨hhead, hrest⟩ := List.pairwise_cons.1 hsorted
    cases b with
    | true =>
      rw [firstFailure_cons_of_holds rfl]
      exact ih hrest (by simpa using hc) fun e he => List.not_mem_of_not_mem_cons (hlower e he)
    | false =>
      have hge : causeCode c ≤ causeCode d := BitVec.not_lt.1 fun h => hlower d h List.mem_cons_self
      have hle : causeCode d ≤ causeCode c := by
        obtain heq | hmem := List.mem_cons.1 hc
        · rw [(Prod.mk.inj heq).2]
          exact BitVec.le_refl _
        · exact hhead _ hmem
      rw [firstFailure_cons_of_not Bool.false_ne_true, causeCode_injective (BitVec.le_antisymm hle hge)]

/-- A command takes the exception of cause `c` when a check of `c` fails and none of a lower code. -/
theorem exec_of_lowest_failure {s : State} {i : Instr} {c : Cause} (hc : (false, c) ∈ checksOf s i)
    (hlower : ∀ d, causeCode d < causeCode c → (false, d) ∉ checksOf s i) :
    exec i s = .next (takeException c s) :=
  exec_of_failure i s c (firstFailure_of_pairwise (checksOf_pairwise s i) hc hlower)

theorem firstFailure_eq_none_of_no_failure {checks : List (Bool × Cause)} (h : ∀ c, (false, c) ∉ checks) :
    firstFailure checks = none := by
  refine (firstFailure_eq_none checks).2 fun ⟨b, c⟩ hmem => ?_
  cases b with
  | true => rfl
  | false => exact absurd hmem (h c)

theorem forall_cause_iff {P : Cause → Prop} :
    (∀ c, P c) ↔ P .illegalCommand ∧ P .sizeMismatch ∧ P .orderViolation ∧ P .bufferViolation := by
  refine ⟨fun h => ⟨h _, h _, h _, h _⟩, fun ⟨hctx, hsize, horder, hbuf⟩ c => ?_⟩
  cases c <;> assumption

/-! ### What a failing check says of the command (R202 to R205) -/

theorem ctxOk_eq_false_iff (s : State) (k : Nat) : ctxOk s k = false ↔ nctx s ≤ k := by
  rw [← Bool.not_eq_true, ctxOk_iff, Nat.not_lt]

theorem keySizesOk_eq_false_iff (key nonce : List Byte) :
    keySizesOk key nonce = false ↔ ¬(key.length = 32 ∧ nonce.length = 8) := by
  rw [← Bool.not_eq_true, keySizesOk_iff]

theorem tailSizeOk_eq_false_iff (length : Nat) : tailSizeOk length = false ↔ 127 < length := by
  rw [← Bool.not_eq_true, tailSizeOk_iff, Nat.not_le]

theorem absorbsIn_eq_false_iff (p : Phase) : absorbsIn p = false ↔ p ≠ .fresh ∧ p ≠ .absorbing := by
  rw [← Bool.not_eq_true, absorbsIn_iff, not_or]

theorem finishesIn_eq_false_iff (p : Phase) : finishesIn p = false ↔ p ≠ .padded := by
  rw [← Bool.not_eq_true, finishesIn_iff]

theorem footprintFits_eq_false_iff (s : State) (a n : Nat) :
    footprintFits s a n = false ↔ 0 < n ∧ ¬FitsBelow s a n := by
  rw [← Bool.not_eq_true, footprintFits_iff, not_or, Nat.pos_iff_ne_zero]

theorem aliasingOk_eq_false_iff (inAddr outAddr length : Nat) :
    aliasingOk inAddr outAddr length = false ↔
      0 < length ∧ inAddr ≠ outAddr ∧ inAddr < outAddr + length ∧ outAddr < inAddr + length := by
  rw [← Bool.not_eq_true, aliasingOk_iff]
  omega

theorem illegalCommand_check_fails_iff (s : State) (i : Instr) :
    (false, .illegalCommand) ∈ checksOf s i ↔ NamesNoContext s i := by
  cases i <;> simp [NamesNoContext, checksOf, ctxOperand, ctxOk_eq_false_iff]

theorem sizeMismatch_check_fails_iff (s : State) (i : Instr) :
    (false, .sizeMismatch) ∈ checksOf s i ↔ WrongSize i := by
  cases i <;> simp [checksOf, keySizesOk_eq_false_iff, tailSizeOk_eq_false_iff]

theorem orderViolation_check_fails_iff (s : State) (i : Instr) :
    (false, .orderViolation) ∈ checksOf s i ↔ OutOfOrder s i := by
  cases i <;> simp [checksOf, absorbsIn_eq_false_iff, finishesIn_eq_false_iff]

/-- The two buffer checks of a transfer. Its footprints have one length, so equal addresses make them identical (R61). -/
theorem transferCheck_fails_iff (s : State) (inAddr outAddr length : Nat) :
    (footprintFits s inAddr length && footprintFits s outAddr length) = false ∨
        aliasingOk inAddr outAddr length = false ↔
      (0 < length ∧ ¬FitsBelow s inAddr length) ∨ (0 < length ∧ ¬FitsBelow s outAddr length) ∨
        (0 < length ∧ inAddr ≠ outAddr ∧ inAddr < outAddr + length ∧ outAddr < inAddr + length) := by
  rw [Bool.and_eq_false_iff, footprintFits_eq_false_iff, footprintFits_eq_false_iff, aliasingOk_eq_false_iff, or_assoc]

theorem bufferViolation_check_fails_iff (s : State) (i : Instr) :
    (false, .bufferViolation) ∈ checksOf s i ↔ BadBuffer s i := by
  cases i <;>
    simp [-Bool.and_eq_false_imp, BadBuffer, checksOf, readFootprint, writeFootprint, footprintFits_eq_false_iff,
      transferCheck_fails_iff]

/-! ### The two obligations -/

/-- A completed command appends its value to the log and records no fault. -/
theorem respond_effectOf (i : Instr) (s : State) :
    (respond (effectOf i s).2 (effectOf i s).1).rspLog =
        s.rspLog ++ [{ status := 0x00, value := (effectOf i s).2 }] ∧
      (respond (effectOf i s).2 (effectOf i s).1).faults = s.faults := by
  obtain ⟨-, hlog, hfaults, -⟩ := effectOf_kept i s
  rw [respond_rspLog, respond_faults, hlog, hfaults]
  exact ⟨rfl, rfl⟩

/-- Settles O41: each clause says that a check of its cause fails and none of a lower code, or that none fails. -/
theorem exceptionPriority : Obligations.ExceptionPriority := by
  unfold Obligations.ExceptionPriority
  intro s i
  rw [← illegalCommand_check_fails_iff, ← sizeMismatch_check_fails_iff s, ← orderViolation_check_fails_iff,
    ← bufferViolation_check_fails_iff]
  refine ⟨fun hctx => exec_of_lowest_failure hctx ?_, fun hctx hsize => exec_of_lowest_failure hsize ?_,
    fun hctx hsize horder => exec_of_lowest_failure horder ?_,
    fun hctx hsize horder hbuf => exec_of_lowest_failure hbuf ?_, fun hctx hsize horder hbuf => ?_⟩
  · simp [forall_cause_iff, causeCode]
  · simp [forall_cause_iff, causeCode, hctx]
  · simp [forall_cause_iff, causeCode, hctx, hsize]
  · simp [forall_cause_iff, causeCode, hctx, hsize, horder]
  · have hnone := firstFailure_eq_none_of_no_failure (forall_cause_iff.2 ⟨hctx, hsize, horder, hbuf⟩)
    exact ⟨_, _, exec_of_checks i s hnone, respond_effectOf i s⟩

/-- Settles O42: an exception is the old state with one response and one fault; an effect touches neither list. -/
theorem exceptionsArePrecise : Obligations.ExceptionsArePrecise := by
  unfold Obligations.ExceptionsArePrecise
  intro s t i h
  obtain ⟨c, -, rfl⟩ | ⟨-, rfl⟩ := exec_cases i s t h
  · exact .inr ⟨c, rfl⟩
  · exact .inl ⟨_, effectOf_value_length i s, respond_effectOf i s⟩

end Sys2Proof.Machine
end

section
/-! What a completed command means, as a function of values: of the bytes in its read footprint and of the context it
names, and of nothing else. Memory, contexts and response after a command whose checks hold are said once, for every
command; the statements on footprints, contexts, transient registers and the invariant are read off from it. -/

namespace Sys2Proof.Machine

/-! ### What a command takes and what it gives -/

/-- The bytes a command reads (R58). -/
def inputOf (i : Instr) (m : Memory) : List Byte := memRead m (readFootprint i).1 (readFootprint i).2

/-- The bytes a completed command writes, of the bytes it reads (R124, R127). -/
def outputOf : Instr → List Byte → List Byte
  | .salsa20Stream _ length nonce key, _ => xorIcV (zeros length) nonce 0 key
  | .salsa20Xor _ _ _ nonce key, input => xorIcV input nonce 0 key
  | .salsa20XorIc _ _ _ nonce counter key, input => xorIcV input nonce counter key
  | _, _ => []

/-- What a completed command makes of the context it names, of the bytes it reads (R170, R173, R177, R181). -/
def contextAfter : Instr → List Byte → Context → Context
  | .sha512Init _, _, _ => initBody
  | .sha512Update _ _, input, c =>
    { c with phase := .absorbing, h := absorbV c.h input 1, len := c.len + BitVec.ofNat 128 (1024 * 1) }
  | .sha512UpdateMulti _ _ n, input, c =>
    { c with phase := .absorbing, h := absorbV c.h input n, len := c.len + BitVec.ofNat 128 (1024 * n) }
  | .sha512UpdateLast _ _ length, input, c =>
    { phase := .padded, h := absorbV c.h (pad input c.len) ((pad input c.len).length / 128),
      len := c.len + BitVec.ofNat 128 (8 * length), buf := [] }
  | .sha512Finish _, _, c => finishBody c
  | _, _, c => c

/-- The response value of a completed command, of the bytes it reads and the context it names (R120, R181, R183). -/
def valueOf : Instr → List Byte → Context → List Byte
  | .salsa20Keystream nonce counter key, _, _ => salsa20BlockV key nonce counter
  | .sha512Finish _, _, c => digest c.h
  | .sha512Hash .., input, _ => sha512V input
  | _, _, _ => []

/-- The context a command names; a command that names none is given a reset one. -/
def namedContext (s : State) (i : Instr) : Context := (ctxOperand i).elim Context.reset (ctxAt s)

/-- The context file a completed command leaves. -/
def ctxsAfter (s : State) (i : Instr) : List Context :=
  (ctxOperand i).elim s.ctxs fun k => s.ctxs.set k (contextAfter i (inputOf i s.mem) (namedContext s i))

@[simp] theorem inputOf_length (i : Instr) (m : Memory) : (inputOf i m).length = (readFootprint i).2 :=
  memRead_length _ _ _

/-- A command writes exactly its write footprint (R59). -/
theorem outputOf_length (i : Instr) (m : Memory) : (outputOf i (inputOf i m)).length = (writeFootprint i).2 := by
  cases i <;> simp [outputOf, readFootprint, writeFootprint]

theorem namedContext_of_some {s : State} {i : Instr} {k : Nat} (hk : ctxOperand i = some k) :
    namedContext s i = ctxAt s k := by
  rw [namedContext, hk, Option.elim_some]

theorem ctxsAfter_of_none {s : State} {i : Instr} (hnone : ctxOperand i = none) : ctxsAfter s i = s.ctxs := by
  rw [ctxsAfter, hnone, Option.elim_none]

theorem ctxsAfter_of_some {s : State} {i : Instr} {k : Nat} (hk : ctxOperand i = some k) :
    ctxsAfter s i = s.ctxs.set k (contextAfter i (inputOf i s.mem) (ctxAt s k)) := by
  rw [ctxsAfter, namedContext_of_some hk, hk, Option.elim_some]

/-! ### Commands that end with `OK` -/

/-- `t` is `s` after `i` has completed: nothing is left open but the transient registers. -/
structure Completed (i : Instr) (s t : State) : Prop where
  ctxs : t.ctxs = ctxsAfter s i
  mem : t.mem = memWrite s.mem (writeFootprint i).1 (outputOf i (inputOf i s.mem))
  rspLog : t.rspLog =
    s.rspLog ++ [{ status := okCode, value := valueOf i (inputOf i s.mem) (namedContext s i) }]
  faults : t.faults = s.faults
  cmdQueue : t.cmdQueue = s.cmdQueue
  aw : t.aw = s.aw
  lenw : t.lenw = s.lenw

/-- The aliasing check of the two XOR commands with an input lets the byte loop be one `MemWrite` (R61). -/
theorem effectOf_mem {i : Instr} {s : State} (h : firstFailure (checksOf s i) = none) :
    (effectOf i s).1.mem = memWrite s.mem (writeFootprint i).1 (outputOf i (inputOf i s.mem)) := by
  cases i with
  | salsa20Stream outAddr length nonce key => rw [effectOf, xorEffect_none]; rfl
  | salsa20Xor outAddr inAddr length nonce key =>
    have halias : aliasingOk inAddr outAddr length = true :=
      (firstFailure_eq_none _).1 h (aliasingOk inAddr outAddr length, .bufferViolation) (by simp [checksOf])
    rw [effectOf, xorEffect_some outAddr inAddr length nonce 0 key s halias]; rfl
  | salsa20XorIc outAddr inAddr length nonce counter key =>
    have halias : aliasingOk inAddr outAddr length = true :=
      (firstFailure_eq_none _).1 h (aliasingOk inAddr outAddr length, .bufferViolation) (by simp [checksOf])
    rw [effectOf, xorEffect_some outAddr inAddr length nonce counter key s halias]; rfl
  | _ => rfl

theorem effectOf_ctxs (i : Instr) (s : State) : (effectOf i s).1.ctxs = ctxsAfter s i := by
  cases i with
  | sha512Update k inAddr => rw [effectOf, onContext_ctxs, updateMultiBody_ctx]; rfl
  | sha512UpdateMulti k inAddr n => rw [effectOf, onContext_ctxs, updateMultiBody_ctx]; rfl
  | sha512UpdateLast k inAddr length => rw [effectOf, onContext_ctxs, updateLastBody_ctx]; rfl
  | _ => rfl

theorem effectOf_value (i : Instr) (s : State) :
    (effectOf i s).2 = valueOf i (inputOf i s.mem) (namedContext s i) := by
  cases i with
  | salsa20Keystream nonce counter key => rw [effectOf_salsa20Keystream, valueOf]
  | sha512Hash inAddr length => rw [effectOf_sha512Hash, valueOf, inputOf, readFootprint]
  | _ => rfl

theorem completed_of_checks {i : Instr} {s : State} (h : firstFailure (checksOf s i) = none) :
    Completed i s (respond (effectOf i s).2 (effectOf i s).1) := by
  obtain ⟨hqueue, hlog, hfaults, haw, hlenw⟩ := effectOf_kept i s
  exact {
    ctxs := effectOf_ctxs i s
    mem := effectOf_mem h
    rspLog := by rw [respond_rspLog, hlog, effectOf_value]
    faults := hfaults, cmdQueue := hqueue, aw := haw, lenw := hlenw }

/-- `exec` takes the exception of the first failing check, or completes. -/
theorem exec_refused_or_completed {i : Instr} {s t : State} (h : exec i s = .next t) :
    (∃ c, firstFailure (checksOf s i) = some c ∧ t = takeException c s) ∨
      (firstFailure (checksOf s i) = none ∧ Completed i s t) := by
  obtain hrefused | ⟨hnone, rfl⟩ := exec_cases i s t h
  · exact .inl hrefused
  · exact .inr ⟨hnone, completed_of_checks hnone⟩

/-- Where the checks agree, both runs of a command take the same exception or both complete. -/
theorem exec_both_refused_or_completed {i : Instr} {s s' t t' : State} (hchecks : checksOf s' i = checksOf s i)
    (h : exec i s = .next t) (h' : exec i s' = .next t') :
    (∃ c, t = takeException c s ∧ t' = takeException c s') ∨ (Completed i s t ∧ Completed i s' t') := by
  obtain ⟨c, hc, rfl⟩ | ⟨hnone, hdone⟩ := exec_refused_or_completed h
  · rw [exec_of_failure i s' c (hchecks ▸ hc)] at h'
    injection h' with h'
    exact .inl ⟨c, rfl, h'.symm⟩
  · rw [exec_of_checks i s' (hchecks ▸ hnone)] at h'
    injection h' with h'
    exact .inr ⟨hdone, h' ▸ completed_of_checks (hchecks ▸ hnone)⟩

/-- A command that keeps every contract completes: a check of each cause fails only where its contract is broken. -/
theorem exec_completes {i : Instr} {s : State} (hctx : ¬NamesNoContext s i) (hsize : ¬WrongSize i)
    (horder : ¬OutOfOrder s i) (hbuf : ¬BadBuffer s i) : ∃ t, exec i s = .next t ∧ Completed i s t := by
  have hnone : firstFailure (checksOf s i) = none := firstFailure_eq_none_of_no_failure <| forall_cause_iff.2
    ⟨mt (illegalCommand_check_fails_iff s i).1 hctx, mt (sizeMismatch_check_fails_iff s i).1 hsize,
      mt (orderViolation_check_fails_iff s i).1 horder, mt (bufferViolation_check_fails_iff s i).1 hbuf⟩
  exact ⟨_, exec_of_checks i s hnone, completed_of_checks hnone⟩

/-- No check and no effect can fail to answer (R210). -/
theorem exec_answers (i : Instr) (s : State) : ∃ t, exec i s = .next t := by
  rw [exec_eq_command]
  exact command_answers _ _ s

theorem step_answers (s : State) : ∃ t, step s = .next t := by
  cases hq : s.cmdQueue with
  | nil => exact ⟨s, by simp only [step, hq, idle]⟩
  | cons r rest =>
    cases hd : decode r with
    | error e => exact ⟨_, step_of_decode_error s r rest e hq hd⟩
    | ok i =>
      obtain ⟨t, ht⟩ := exec_answers i (takeCommand rest s)
      exact ⟨t, by simpa only [step, hq, hd] using ht⟩

/-- Settles O44: `exec_answers` and `step_answers`. -/
theorem everyStepAnswers : Obligations.EveryStepAnswers := by
  unfold Obligations.EveryStepAnswers
  exact ⟨fun s i => exec_answers i s, step_answers⟩

end Sys2Proof.Machine
end

section
/-! Transient registers are invisible (10_state R20, R43): what a command leaves, but for the transient registers, is a
function of what it found but for the transient registers. -/

namespace Sys2Proof.Machine

theorem AgreeButTransient.takeException {s s' : State} (h : AgreeButTransient s s') (c : Cause) :
    AgreeButTransient (takeException c s) (takeException c s') := by
  obtain ⟨hctxs, hqueue, hlog, hfaults, hmem, haw, hlenw⟩ := h
  simp [AgreeButTransient, hctxs, hqueue, hlog, hfaults, hmem, haw, hlenw]

theorem AgreeButTransient.takeCommand {s s' : State} (h : AgreeButTransient s s') (rest : List Record) :
    AgreeButTransient (takeCommand rest s) (takeCommand rest s') := by
  obtain ⟨hctxs, -, hlog, hfaults, hmem, haw, hlenw⟩ := h
  exact ⟨hctxs, rfl, hlog, hfaults, hmem, haw, hlenw⟩

theorem namedContext_congr {s s' : State} (i : Instr) (h : s.ctxs = s'.ctxs) :
    namedContext s i = namedContext s' i := by
  have hread : ctxAt s = ctxAt s' := funext fun k => by rw [ctxAt, ctxAt, h]
  rw [namedContext, namedContext, hread]

theorem ctxsAfter_congr {s s' : State} (i : Instr) (hctxs : s.ctxs = s'.ctxs) (hmem : s.mem = s'.mem) :
    ctxsAfter s i = ctxsAfter s' i := by
  rw [ctxsAfter, ctxsAfter, namedContext_congr i hctxs, hctxs, hmem]

theorem Completed.agreeButTransient {i : Instr} {s s' t t' : State} (h : Completed i s t) (h' : Completed i s' t')
    (hs : AgreeButTransient s s') : AgreeButTransient t t' := by
  obtain ⟨hctxs, hqueue, hlog, hfaults, hmem, haw, hlenw⟩ := hs
  refine ⟨?_, ?_, ?_, ?_, ?_, ?_, ?_⟩
  · rw [h.ctxs, h'.ctxs, ctxsAfter_congr i hctxs hmem]
  · rw [h.cmdQueue, h'.cmdQueue, hqueue]
  · rw [h.rspLog, h'.rspLog, hlog, hmem, namedContext_congr i hctxs]
  · rw [h.faults, h'.faults, hfaults]
  · rw [h.mem, h'.mem, hmem]
  · rw [h.aw, h'.aw, haw]
  · rw [h.lenw, h'.lenw, hlenw]

theorem exec_agreeButTransient {i : Instr} {s s' t t' : State} (hs : AgreeButTransient s s')
    (h : exec i s = .next t) (h' : exec i s' = .next t') : AgreeButTransient t t' := by
  have hchecks : checksOf s' i = checksOf s i := by
    obtain ⟨hctxs, -, -, -, -, haw, -⟩ := hs
    exact checksOf_congr s' s i hctxs.symm haw.symm
  obtain ⟨c, rfl, rfl⟩ | ⟨hdone, hdone'⟩ := exec_both_refused_or_completed hchecks h h'
  · exact hs.takeException c
  · exact hdone.agreeButTransient hdone' hs

theorem step_agreeButTransient {s s' t t' : State} (hs : AgreeButTransient s s') (h : step s = .next t)
    (h' : step s' = .next t') : AgreeButTransient t t' := by
  have hqueue : s.cmdQueue = s'.cmdQueue := by
    obtain ⟨-, hqueue, -⟩ := hs
    exact hqueue
  cases hq : s'.cmdQueue with
  | nil =>
    simp only [step, hqueue, hq, idle] at h h'
    injection h with h
    injection h' with h'
    exact h ▸ h' ▸ hs
  | cons r rest =>
    simp only [step, hqueue, hq] at h h'
    cases hd : decode r with
    | error e =>
      simp only [hd, reservedOpcode] at h h'
      injection h with h
      injection h' with h'
      exact h ▸ h' ▸ (hs.takeCommand rest).takeException .illegalCommand
    | ok i =>
      simp only [hd] at h h'
      exact exec_agreeButTransient (hs.takeCommand rest) h h'

theorem run_succ_of_step {s t : State} (n : Nat) (h : step s = .next t) :
    Host.Core.run Sys2Proof.core (n + 1) s = Host.Core.run Sys2Proof.core n t := by
  have hcore : Sys2Proof.core.step s = .next t := h
  simp only [Host.Core.run, hcore]

/-- Settles O54: agreement is kept by every step (`step_agreeButTransient`), and every step answers. -/
theorem transientRegistersAreInvisible : Obligations.TransientRegistersAreInvisible := by
  unfold Obligations.TransientRegistersAreInvisible
  intro n
  induction n with
  | zero => exact fun s s' hs => ⟨s, s', rfl, rfl, hs⟩
  | succ n ih =>
    intro s s' hs
    obtain ⟨t, ht⟩ := step_answers s
    obtain ⟨t', ht'⟩ := step_answers s'
    rw [run_succ_of_step n ht, run_succ_of_step n ht']
    exact ih t t' (step_agreeButTransient hs ht ht')

end Sys2Proof.Machine
end

section
/-! What a command leaves alone and what it does not depend on (00_scope R1, 10_state R34, R42, 20_memory R58, R59,
70_reset_and_hazards R235), each read off from `exec_refused_or_completed`: an exception touches only the response log
and the recorded faults, and `Completed` says what a completed command does. -/

namespace Sys2Proof.Machine

/-! ### Memory -/

/-- Settles O46: a completed command is one `MemWrite` on its write footprint, and `outputOf_length` is its size. -/
theorem writesStayInTheFootprint : Obligations.WritesStayInTheFootprint := by
  unfold Obligations.WritesStayInTheFootprint
  intro s t i x h hx
  obtain ⟨c, -, rfl⟩ | ⟨-, hdone⟩ := exec_refused_or_completed h
  · rw [takeException_mem]
  · rw [hdone.mem]
    exact readByte_memWrite_of_outside _ _ _ _ (by rwa [outputOf_length])

/-- What a completed command wrote is read back. -/
theorem Completed.memRead_writeFootprint {i : Instr} {s t : State} (h : Completed i s t) (hm : memoryWf s.mem = true) :
    memRead t.mem (writeFootprint i).1 (writeFootprint i).2 = outputOf i (inputOf i s.mem) := by
  rw [h.mem, ← outputOf_length i s.mem, memRead_memWrite _ _ _ hm]

/-- Settles O47: the checks do not look at memory, and a completed command is a function of its input bytes. -/
theorem readsStayInTheFootprint : Obligations.ReadsStayInTheFootprint := by
  unfold Obligations.ReadsStayInTheFootprint
  intro s t t' m i hs hm hread h h'
  have hinput : inputOf i m = inputOf i s.mem := hread.symm
  have hchecks : checksOf { s with mem := m } i = checksOf s i := checksOf_congr _ _ i rfl rfl
  obtain ⟨c, rfl, rfl⟩ | ⟨hdone, hdone'⟩ := exec_both_refused_or_completed hchecks h h'
  · exact ⟨rfl, rfl, rfl, fun hkept => absurd hkept (by simp)⟩
  · refine ⟨?_, ?_, hdone'.faults.trans hdone.faults.symm, fun _ => ?_⟩
    · rw [hdone'.rspLog, hdone.rspLog, hinput]; rfl
    · rw [hdone'.ctxs, hdone.ctxs, ctxsAfter, hinput]; rfl
    · rw [hdone'.memRead_writeFootprint hm, hdone.memRead_writeFootprint hs, hinput]

/-! ### Contexts -/

theorem ctxsAfter_length (s : State) (i : Instr) : (ctxsAfter s i).length = s.ctxs.length := by
  cases hk : ctxOperand i with
  | none => rw [ctxsAfter_of_none hk]
  | some k => rw [ctxsAfter_of_some hk, List.length_set]

theorem Completed.nctx_eq {i : Instr} {s t : State} (h : Completed i s t) : nctx t = nctx s := by
  rw [nctx, h.ctxs, ctxsAfter_length, nctx]

theorem ctxsAfter_getElem?_of_ne (s : State) (i : Instr) (k : Nat) (h : ctxOperand i ≠ some k) :
    (ctxsAfter s i)[k]? = s.ctxs[k]? := by
  cases hj : ctxOperand i with
  | none => rw [ctxsAfter_of_none hj]
  | some j =>
    have hjk : j ≠ k := fun heq => h (heq ▸ hj)
    rw [ctxsAfter_of_some hj, List.getElem?_set_ne hjk]

/-- Settles O49: `ctxsAfter_getElem?_of_ne`. -/
theorem otherContextsAreUntouched : Obligations.OtherContextsAreUntouched := by
  unfold Obligations.OtherContextsAreUntouched
  intro s t i k h hk
  obtain ⟨c, -, rfl⟩ | ⟨-, hdone⟩ := exec_refused_or_completed h
  · rw [takeException_ctxs]
  · rw [hdone.ctxs, ctxsAfter_getElem?_of_ne s i k hk]

/-- The checks look at `AW`, at the number of contexts and at the named context. -/
theorem checksOf_congr_of_namedContext {s s' : State} {i : Instr} (haw : s'.aw = s.aw) (hn : nctx s' = nctx s)
    (hnamed : namedContext s' i = namedContext s i) : checksOf s' i = checksOf s i := by
  have hfit : footprintFits s' = footprintFits s := by
    funext a n
    rw [footprintFits, footprintFits, haw]
  have hctx : ctxOk s' = ctxOk s := by
    funext k
    rw [ctxOk, ctxOk, hn]
  cases i with
  | sha512Init k => simp only [checksOf, hctx]
  | sha512Update k a =>
    have hc : ctxAt s' k = ctxAt s k := hnamed
    simp only [checksOf, hctx, hfit, hc]
  | sha512UpdateMulti k a n =>
    have hc : ctxAt s' k = ctxAt s k := hnamed
    simp only [checksOf, hctx, hfit, hc]
  | sha512UpdateLast k a n =>
    have hc : ctxAt s' k = ctxAt s k := hnamed
    simp only [checksOf, hctx, hfit, hc]
  | sha512Finish k =>
    have hc : ctxAt s' k = ctxAt s k := hnamed
    simp only [checksOf, hctx, hc]
  | _ => simp only [checksOf, hfit]

theorem namedContext_congr_of_getElem? {s s' : State} {i : Instr}
    (h : ∀ k, ctxOperand i = some k → s'.ctxs[k]? = s.ctxs[k]?) : namedContext s' i = namedContext s i := by
  cases hk : ctxOperand i with
  | none => rw [namedContext, namedContext, hk, Option.elim_none, Option.elim_none]
  | some k =>
    rw [namedContext_of_some hk, namedContext_of_some hk, ctxAt, ctxAt, List.getD_eq_getElem?_getD,
      List.getD_eq_getElem?_getD, h k hk]

/-- Settles O50: checks and effect look at no context but the named one. -/
theorem commandsReadOnlyTheirContext : Obligations.CommandsReadOnlyTheirContext := by
  unfold Obligations.CommandsReadOnlyTheirContext
  intro s t t' ctxs i hlen hctx h h'
  have hnamed : namedContext { s with ctxs := ctxs } i = namedContext s i := namedContext_congr_of_getElem? hctx
  have hchecks : checksOf { s with ctxs := ctxs } i = checksOf s i := checksOf_congr_of_namedContext rfl hlen hnamed
  obtain ⟨c, rfl, rfl⟩ | ⟨hdone, hdone'⟩ := exec_both_refused_or_completed hchecks h h'
  · exact ⟨rfl, rfl, rfl, hctx⟩
  · refine ⟨by rw [hdone'.rspLog, hdone.rspLog, hnamed], hdone'.mem.trans hdone.mem.symm,
      hdone'.faults.trans hdone.faults.symm, fun k hk => ?_⟩
    rw [namedContext_of_some hk, namedContext_of_some hk] at hnamed
    rw [hdone'.ctxs, hdone.ctxs, ctxsAfter_of_some hk, ctxsAfter_of_some hk, hnamed, List.getElem?_set,
      List.getElem?_set, hctx k hk, hlen]

/-- No command leaves the context it names `UNINIT` (R235). -/
theorem contextAfter_phase_ne_uninit {i : Instr} {k : Nat} (hk : ctxOperand i = some k) (input : List Byte)
    (c : Context) : (contextAfter i input c).phase ≠ .uninit := by
  cases i with
  | salsa20Keystream | salsa20Stream | salsa20Xor | salsa20XorIc | sha512Hash => cases hk
  | sha512Init | sha512Update | sha512UpdateMulti | sha512UpdateLast | sha512Finish => exact nofun

/-- The named context after a completed command, and every other one. -/
theorem Completed.ctxAt_eq {i : Instr} {s t : State} (h : Completed i s t) (k : Nat) (hk : k < nctx s) :
    ctxAt t k = if ctxOperand i = some k then contextAfter i (inputOf i s.mem) (ctxAt s k) else ctxAt s k := by
  split
  · next hi =>
    rw [← ctxAt_setCtx_self s k (contextAfter i (inputOf i s.mem) (ctxAt s k)) hk, ctxAt, ctxAt, h.ctxs,
      ctxsAfter_of_some hi, setCtx_ctxs]
  · next hi =>
    rw [ctxAt, ctxAt, List.getD_eq_getElem?_getD, List.getD_eq_getElem?_getD, h.ctxs,
      ctxsAfter_getElem?_of_ne s i k hi]

theorem Completed.ctxAt_named {i : Instr} {s t : State} {k : Nat} (h : Completed i s t) (hk : k < nctx s)
    (hi : ctxOperand i = some k) : ctxAt t k = contextAfter i (inputOf i s.mem) (ctxAt s k) := by
  rw [h.ctxAt_eq k hk, if_pos hi]

/-- A context that is not `UNINIT` exists. -/
theorem lt_nctx_of_phase_ne_uninit {s : State} {k : Nat} (h : (ctxAt s k).phase ≠ .uninit) : k < nctx s := by
  by_contra hk
  have hreset : ctxAt s k = Context.reset := List.getD_eq_default _ _ (Nat.le_of_not_lt hk)
  exact h (congrArg Context.phase hreset)

/-- Settles O52: `contextAfter_phase_ne_uninit` for the named context; the others are kept. -/
theorem noCommandReturnsToUninit : Obligations.NoCommandReturnsToUninit := by
  unfold Obligations.NoCommandReturnsToUninit
  intro s t i k h hphase
  obtain ⟨c, -, rfl⟩ | ⟨-, hdone⟩ := exec_refused_or_completed h
  · exact hphase
  · rw [hdone.ctxAt_eq k (lt_nctx_of_phase_ne_uninit hphase)]
    split
    · next hk => exact contextAfter_phase_ne_uninit hk _ _
    · exact hphase

/-! ### The other engine, the parameters and the queue -/

theorem effectOf_salsa20_sha {i : Instr} (hi : isSalsa i = true) (s : State) : (effectOf i s).1.sha = s.sha := by
  cases i with
  | salsa20Keystream | salsa20Stream | salsa20Xor | salsa20XorIc => rfl
  | sha512Init | sha512Update | sha512UpdateMulti | sha512UpdateLast | sha512Finish | sha512Hash => cases hi

theorem effectOf_sha512_salsa {i : Instr} (hi : isSalsa i = false) (s : State) :
    (effectOf i s).1.salsa = s.salsa := by
  cases i with
  | salsa20Keystream | salsa20Stream | salsa20Xor | salsa20XorIc => cases hi
  | sha512Init | sha512Update | sha512UpdateMulti | sha512UpdateLast | sha512Finish | sha512Hash => rfl

theorem ctxOperand_of_isSalsa {i : Instr} (hi : isSalsa i = true) : ctxOperand i = none := by
  cases i with
  | salsa20Keystream | salsa20Stream | salsa20Xor | salsa20XorIc => rfl
  | sha512Init | sha512Update | sha512UpdateMulti | sha512UpdateLast | sha512Finish | sha512Hash => cases hi

theorem outputOf_of_not_isSalsa {i : Instr} (hi : isSalsa i = false) (input : List Byte) : outputOf i input = [] := by
  cases i with
  | salsa20Keystream | salsa20Stream | salsa20Xor | salsa20XorIc => cases hi
  | sha512Init | sha512Update | sha512UpdateMulti | sha512UpdateLast | sha512Finish | sha512Hash => rfl

theorem Completed.mem_of_not_isSalsa {i : Instr} {s t : State} (h : Completed i s t) (hi : isSalsa i = false) :
    t.mem = s.mem := by
  rw [h.mem, outputOf_of_not_isSalsa hi, memWrite]

/-- Settles O48: an effect keeps the registers of the other engine; a Salsa20 command names no context, and a SHA-512
command has no output bytes. -/
theorem enginesAreIndependent : Obligations.EnginesAreIndependent := by
  unfold Obligations.EnginesAreIndependent
  intro s t i h
  obtain ⟨c, -, rfl⟩ | ⟨hnone, rfl⟩ := exec_cases i s t h
  · exact ⟨rfl, rfl, rfl, rfl, fun _ => ⟨rfl, rfl⟩, fun _ => ⟨rfl, rfl⟩⟩
  · have hdone := completed_of_checks hnone
    refine ⟨hdone.aw, hdone.lenw, hdone.nctx_eq, hdone.cmdQueue, fun hi => ⟨?_, effectOf_salsa20_sha hi s⟩,
      fun hi => ⟨hdone.mem_of_not_isSalsa hi, effectOf_sha512_salsa hi s⟩⟩
    rw [hdone.ctxs, ctxsAfter_of_none (ctxOperand_of_isSalsa hi)]

end Sys2Proof.Machine
end

section
/-! The invariant of the machine (`Sound`), kept by every step: a command keeps it whether it completes or is refused,
and taking a command off the queue touches nothing it speaks of. -/

namespace Sys2Proof.Machine

/-! ### Responses and recorded faults (R18, R29, R90, R212) -/

theorem responseSound_exception (c : Cause) : ResponseSound { status := causeCode c, value := [] } := by
  refine .inr ⟨?_, rfl⟩
  cases c <;> simp

theorem responseSound_ok {i : Instr} {v : List Byte} (h : v.length = valueLength i) :
    ResponseSound { status := okCode, value := v } := by
  refine .inl ⟨rfl, ?_⟩
  rw [h]
  cases i <;> simp [valueLength]

theorem valueOf_length (i : Instr) (s : State) :
    (valueOf i (inputOf i s.mem) (namedContext s i)).length = valueLength i := by
  rw [← effectOf_value, effectOf_value_length]

theorem causeCode_ne_okCode (c : Cause) : causeCode c ≠ okCode := by
  cases c <;> decide

/-- A refused command adds its cause to both lists. -/
theorem FaultsSound.takeException {s : State} (h : FaultsSound s) (c : Cause) : FaultsSound (takeException c s) := by
  have hkept : (causeCode c != okCode) = true := bne_iff_ne.2 (causeCode_ne_okCode c)
  unfold FaultsSound at h ⊢
  rw [takeException_faults, takeException_rspLog, List.map_append, List.map_append, List.filter_append, h]
  simp [hkept]

/-- A completed command adds nothing to either list. -/
theorem FaultsSound.of_ok {s t : State} {v : List Byte} (h : FaultsSound s) (hfaults : t.faults = s.faults)
    (hlog : t.rspLog = s.rspLog ++ [{ status := okCode, value := v }]) : FaultsSound t := by
  unfold FaultsSound at h ⊢
  rw [hfaults, hlog, List.map_append, List.filter_append, h]
  simp

/-! ### Memory (R41) -/

/-- A completed command has no failing buffer check, so what it writes lies in the address space (R62). -/
theorem fitsBelow_writeFootprint {s : State} {i : Instr} (h : firstFailure (checksOf s i) = none) :
    (writeFootprint i).2 = 0 ∨ FitsBelow s (writeFootprint i).1 (writeFootprint i).2 := by
  have hbuf : ¬BadBuffer s i := fun hbad =>
    absurd ((firstFailure_eq_none _).1 h _ ((bufferViolation_check_fails_iff s i).2 hbad)) Bool.false_ne_true
  by_contra hout
  obtain ⟨hpos, hfit⟩ := not_or.1 hout
  exact hbuf (.inr (.inl ⟨Nat.pos_of_ne_zero hpos, hfit⟩))

/-- Writing bytes that lie in the address space keeps memory sound. -/
theorem MemorySound.memWrite {s t : State} {a : Nat} {b : List Byte} (h : MemorySound s)
    (hfit : b.length = 0 ∨ FitsBelow s a b.length) (hmem : t.mem = memWrite s.mem a b) (haw : t.aw = s.aw) :
    MemorySound t := by
  obtain ⟨hwf, hbound⟩ := h
  unfold MemorySound
  rw [hmem, haw]
  refine ⟨memoryWf_memWrite _ _ _ hwf, ?_⟩
  cases hw : s.aw with
  | none => trivial
  | some w =>
    simp only [FitsBelow, hw] at hbound hfit
    intro c hc
    obtain hnew | hold := mem_memWrite _ _ _ _ hc
    · omega
    · exact hbound c hold

/-! ### Contexts (R38, R170, R172, R177) -/

/-- `LEN` advanced by a multiple of `m` keeps its remainder, also when it wraps: `m` divides `2^128`. -/
theorem len_add_mod {len : Word128} {m n : Nat} (hm : m ∣ 2 ^ 128) (hlen : len.toNat % m = 0) :
    (len + BitVec.ofNat 128 (m * n)).toNat % m = 0 := by
  rw [BitVec.toNat_add, BitVec.toNat_ofNat, Nat.add_mod_mod, Nat.mod_mod_of_dvd _ hm, Nat.add_mul_mod_self_left, hlen]

/-- A context that may absorb has absorbed whole blocks. -/
theorem ContextSound.len_mod {c : Context} (h : ContextSound c) (hphase : c.phase = .fresh ∨ c.phase = .absorbing) :
    c.len.toNat % 1024 = 0 := by
  obtain ⟨-, hlen⟩ := h
  obtain hp | hp := hphase
  · simp only [hp] at hlen
    rw [hlen.2]; rfl
  · simpa only [hp] using hlen

/-- The phase check lets through only contexts whose `LEN` the command may build on. -/
theorem ContextSound.contextAfter {s : State} {i : Instr} {k : Nat} {input : List Byte} (hk : ctxOperand i = some k)
    (horder : ¬OutOfOrder s i) (h : ContextSound (ctxAt s k)) :
    ContextSound (contextAfter i input (ctxAt s k)) := by
  have habsorb : ∀ p : Phase, ¬(p ≠ .fresh ∧ p ≠ .absorbing) → p = .fresh ∨ p = .absorbing := fun p hp => by tauto
  cases i with
  | salsa20Keystream | salsa20Stream | salsa20Xor | salsa20XorIc | sha512Hash => cases hk
  | sha512Init => exact ⟨rfl, rfl, rfl⟩
  | sha512Update =>
    cases hk
    exact ⟨h.1, len_add_mod (by decide) (h.len_mod (habsorb _ horder))⟩
  | sha512UpdateMulti =>
    cases hk
    exact ⟨h.1, len_add_mod (by decide) (h.len_mod (habsorb _ horder))⟩
  | sha512UpdateLast =>
    cases hk
    have hbytes : (ctxAt s k).len.toNat % 8 = 0 := by
      have := h.len_mod (habsorb _ horder)
      omega
    exact ⟨rfl, len_add_mod (by decide) hbytes⟩
  | sha512Finish =>
    cases hk
    have hpadded : (ctxAt s k).phase = .padded := not_not.1 horder
    obtain ⟨hbuf, hlen⟩ := h
    simp only [hpadded] at hlen
    exact ⟨hbuf, hlen⟩

/-! ### The step -/

theorem Sound.takeException {s : State} (h : Sound s) (c : Cause) : Sound (takeException c s) where
  nctx_pos := h.nctx_pos
  memory := h.memory
  contexts := h.contexts
  responses r hr := by
    obtain hold | hnew := List.mem_append.1 hr
    · exact h.responses r hold
    · exact List.mem_singleton.1 hnew ▸ responseSound_exception c
  faults := h.faults.takeException c

theorem Sound.takeCommand {s : State} (h : Sound s) (rest : List Record) : Sound (takeCommand rest s) where
  nctx_pos := h.nctx_pos
  memory := h.memory
  contexts := h.contexts
  responses := h.responses
  faults := h.faults

theorem Sound.contexts_ctxsAfter {s : State} {i : Instr} (h : Sound s) (hnone : firstFailure (checksOf s i) = none)
    (c : Context) (hc : c ∈ ctxsAfter s i) : ContextSound c := by
  have hcheck := (firstFailure_eq_none _).1 hnone
  cases hk : ctxOperand i with
  | none => exact h.contexts c (ctxsAfter_of_none hk ▸ hc)
  | some k =>
    rw [ctxsAfter_of_some hk] at hc
    obtain hold | rfl := List.mem_or_eq_of_mem_set hc
    · exact h.contexts c hold
    · have hctx : ¬NamesNoContext s i := fun hbad =>
        absurd (hcheck _ ((illegalCommand_check_fails_iff s i).2 hbad)) Bool.false_ne_true
      have horder : ¬OutOfOrder s i := fun hbad =>
        absurd (hcheck _ ((orderViolation_check_fails_iff s i).2 hbad)) Bool.false_ne_true
      simp only [NamesNoContext, hk, Nat.not_le] at hctx
      exact (h.contexts _ (ctxAt_mem s k hctx)).contextAfter hk horder

theorem Sound.completed {s t : State} {i : Instr} (h : Sound s) (hnone : firstFailure (checksOf s i) = none)
    (hdone : Completed i s t) : Sound t where
  nctx_pos := hdone.nctx_eq ▸ h.nctx_pos
  memory := h.memory.memWrite (outputOf_length i s.mem ▸ fitsBelow_writeFootprint hnone) hdone.mem hdone.aw
  contexts c hc := h.contexts_ctxsAfter hnone c (hdone.ctxs ▸ hc)
  responses r hr := by
    rw [hdone.rspLog] at hr
    obtain hold | hnew := List.mem_append.1 hr
    · exact h.responses r hold
    · exact List.mem_singleton.1 hnew ▸ responseSound_ok (valueOf_length i s)
  faults := h.faults.of_ok hdone.faults hdone.rspLog

/-- Settles O55: idle, refused and completed steps in turn. -/
theorem stepKeepsSoundness : Obligations.StepKeepsSoundness := by
  unfold Obligations.StepKeepsSoundness
  intro s t hs h
  obtain ⟨-, rfl⟩ | ⟨r, rest, -, ⟨e, -, rfl⟩ | ⟨i, -, hexec⟩⟩ := step_cases s t h
  · exact hs
  · exact (hs.takeCommand rest).takeException .illegalCommand
  · obtain ⟨c, -, rfl⟩ | ⟨hnone, hdone⟩ := exec_refused_or_completed hexec
    · exact (hs.takeCommand rest).takeException c
    · exact (hs.takeCommand rest).completed hnone hdone

/-- Settles O51: `exec_rspLog` says what a command appends; a reserved opcode is refused. -/
theorem oneResponsePerCommand : Obligations.OneResponsePerCommand := by
  unfold Obligations.OneResponsePerCommand
  intro s t h
  obtain hidle | ⟨r, rest, hq, ⟨e, -, rfl⟩ | ⟨i, -, hexec⟩⟩ := step_cases s t h
  · exact .inl hidle
  · exact .inr ⟨r, _, hq, rfl, responseSound_exception .illegalCommand⟩
  · obtain ⟨-, -, -, hqueue, -⟩ := enginesAreIndependent _ t i hexec
    have hq' : s.cmdQueue = r :: t.cmdQueue := by rw [hq, hqueue, takeCommand_cmdQueue]
    obtain ⟨c, hlog⟩ | ⟨v, hv, hlog⟩ := exec_rspLog i _ t hexec
    · exact .inr ⟨r, _, hq', hlog, responseSound_exception c⟩
    · exact .inr ⟨r, _, hq', hlog, responseSound_ok hv⟩

/-! ### The state after reset (R230) -/

theorem contextSound_reset : ContextSound Context.reset := ⟨rfl, trivial⟩

theorem sound_resetWith (p : Params) (m : Memory) (hp : 1 ≤ p.nctx) (hm : MemorySound (State.resetWith p m)) :
    Sound (State.resetWith p m) where
  nctx_pos := by simpa [nctx, State.resetWith] using hp
  memory := hm
  contexts c hc := List.eq_of_mem_replicate hc ▸ contextSound_reset
  responses := nofun
  faults := rfl

/-- Settles O56: the reset state of the spec's own runs is one of those of `sound_resetWith`. -/
theorem resetIsSound : Obligations.ResetIsSound := by
  unfold Obligations.ResetIsSound
  exact ⟨sound_resetWith _ _ (by decide) ⟨rfl, nofun⟩, sound_resetWith⟩

/-- Settles O57: every context is a copy of `Context.reset`, and the other fields are those of the definition. -/
theorem resetState : Obligations.ResetState := by
  unfold Obligations.ResetState
  intro p m
  refine ⟨List.length_replicate, fun c hc => ?_, rfl, rfl, rfl, rfl, rfl, rfl⟩
  rw [List.eq_of_mem_replicate hc]
  exact ⟨rfl, rfl⟩

end Sys2Proof.Machine
end

section
/-! Salsa20 beyond the single command (40_salsa20_core section 1, 41_salsa20_stream sections 1 and 3): the quarter-round
has an inverse, the feed-forward is one addition per word, the value-level XOR undoes itself and splits between blocks,
and with it commands in place and commands one after the other. -/

namespace Sys2Proof.Machine

open Sys2Proof.Laws

/-! ### The quarter-round has an inverse (R102) -/

theorem xor32_xor32_cancel (x y : Word32) : xor32 (xor32 x y) y = x := by
  rw [xor32, xor32, BitVec.xor_assoc, BitVec.xor_self, BitVec.xor_zero]

/-- The four updates of `QR` undone, the last one first. -/
def quarterRoundInverse (v : Word32 × Word32 × Word32 × Word32) : Word32 × Word32 × Word32 × Word32 :=
  let a := xor32 v.1 (rotl32 (add32 v.2.2.2 v.2.2.1) 18)
  let d := xor32 v.2.2.2 (rotl32 (add32 v.2.2.1 v.2.1) 13)
  let c := xor32 v.2.2.1 (rotl32 (add32 v.2.1 a) 9)
  let b := xor32 v.2.1 (rotl32 (add32 a d) 7)
  (a, b, c, d)

theorem quarterRoundInverse_leftInverse : Function.LeftInverse quarterRoundInverse quarterRoundWords := by
  rintro ⟨a, b, c, d⟩
  simp only [quarterRoundInverse, quarterRoundWords, quarterRound, xor32_xor32_cancel]

theorem quarterRoundInverse_rightInverse : Function.RightInverse quarterRoundInverse quarterRoundWords := by
  rintro ⟨a, b, c, d⟩
  simp only [quarterRoundInverse, quarterRoundWords, quarterRound, xor32_xor32_cancel]

/-- Settles O9: `quarterRoundInverse` is the inverse on both sides; the fixed point by evaluation. -/
theorem quarterRoundIsBijective : Obligations.QuarterRoundIsBijective := by
  unfold Obligations.QuarterRoundIsBijective
  refine ⟨?_, by decide⟩
  exact Function.bijective_iff_has_inverse.2
    ⟨quarterRoundInverse, quarterRoundInverse_leftInverse, quarterRoundInverse_rightInverse⟩

/-! ### The feed-forward (R108) -/

/-- What the loop of `FEEDFORWARD`, begun on `r`, holds after `k` turns: the first `k` words are added to. -/
def FeedForwardDone (r : SalsaRegs) (k : Nat) (y : SalsaRegs) : Prop :=
  (∀ (j : Nat) (_ : j < 16), y.x[j] = if j < k then add32 r.x[j] r.inp[j] else r.x[j]) ∧ y.inp = r.inp ∧ y.ks = r.ks

theorem FeedForwardDone.succ {r y : SalsaRegs} {k : Nat} (hk : k < 16) (h : FeedForwardDone r k y) :
    FeedForwardDone r (k + 1) { y with x := y.x.set k (add32 y.x[k] y.inp[k]) } := by
  obtain ⟨hx, hinp, hks⟩ := h
  refine ⟨fun j hj => ?_, hinp, hks⟩
  obtain rfl | hne := eq_or_ne k j
  · have hold : y.x[k] = r.x[k] := by rw [hx k hk, if_neg (Nat.lt_irrefl k)]
    rw [if_pos (Nat.lt_succ_self k), Vector.getElem_set_self hk, hold, hinp]
  · have hiff : j < k + 1 ↔ j < k := by omega
    simp only [Vector.getElem_set_ne hk hj hne, hx j hj, hiff]

theorem feedForward_feedForwardDone (r : SalsaRegs) : FeedForwardDone r 16 (feedForward r) := by
  unfold feedForward
  exact fold_inv 16 _ r (FeedForwardDone r) ⟨fun _ _ => rfl, rfl, rfl⟩ fun _ hk _ h => h.succ hk

/-- Settles O13: `feedForward_feedForwardDone`, all sixteen words being done after the last turn. -/
theorem feedForwardAddsTheInputMatrix : Obligations.FeedForwardAddsTheInputMatrix := by
  unfold Obligations.FeedForwardAddsTheInputMatrix
  intro r
  obtain ⟨hx, hinp, hks⟩ := feedForward_feedForwardDone r
  exact ⟨fun i => (hx i i.isLt).trans (if_pos i.isLt), hinp, hks⟩

/-! ### Counters and blocks (R84, R121, R122) -/

theorem toNat_blockCounter (c0 : Word64) (i : Nat) : (blockCounter c0 i).toNat = (c0.toNat + i) % 2 ^ 64 := by
  rw [blockCounter, toNat_add64, BitVec.toNat_ofNat, Nat.add_mod_mod]

/-- The counter advanced by `q` blocks counts on from block `q`. -/
theorem blockCounter_add64 (c0 : Word64) (q i : Nat) :
    blockCounter (add64 c0 (BitVec.ofNat 64 q)) i = blockCounter c0 (q + i) := by
  rw [blockCounter, blockCounter, add64, add64, add64, BitVec.ofNat_add, BitVec.add_assoc]

/-- Settles O16: the counter by `toNat_blockCounter`; the rest is division by 64 with rounding up. -/
theorem counterSequenceWraps : Obligations.CounterSequenceWraps := by
  unfold Obligations.CounterSequenceWraps
  simp only [salsaBlocks, usedBytes]
  refine ⟨toNat_blockCounter, ?_, ?_, ?_, ?_⟩ <;> omega

/-! ### The value-level XOR (R124, R128, R129) -/

/-- Output byte `p` is input byte `p` xor byte `p mod 64` of the block of counter `c + p / 64`. -/
theorem xorIcV_getElem (p nonce : List Byte) (c : Word64) (key : List Byte) (q : Nat)
    (hq : q < (xorIcV p nonce c key).length) :
    (xorIcV p nonce c key)[q] =
      xor8 (p[q]'(by rwa [xorIcV_length] at hq))
        (byteAt (salsa20BlockV key nonce (blockCounter c (q / 64))) (q % 64)) :=
  List.getElem_mapIdx

theorem xor8_xor8_cancel (x y : Byte) : xor8 (xor8 x y) y = x := by
  rw [xor8, xor8, BitVec.xor_assoc, BitVec.xor_self, BitVec.xor_zero]

/-- The same bytes are xor'ed a second time (R128). -/
theorem xorIcV_xorIcV (p nonce : List Byte) (c : Word64) (key : List Byte) :
    xorIcV (xorIcV p nonce c key) nonce c key = p := by
  apply List.ext_getElem
  · rw [xorIcV_length, xorIcV_length]
  · intro q hq hp
    rw [xorIcV_getElem, xorIcV_getElem, xor8_xor8_cancel]

/-- After `64 * q` bytes, a block boundary, the rest is xor'ed from counter `c + q` on (R129). -/
theorem xorIcV_append (p p' nonce : List Byte) (c : Word64) (key : List Byte) (q : Nat) (hq : p.length = 64 * q) :
    xorIcV (p ++ p') nonce c key = xorIcV p nonce c key ++ xorIcV p' nonce (add64 c (BitVec.ofNat 64 q)) key := by
  have hblock : ∀ i, (i + 64 * q) / 64 = q + i / 64 := fun i => by omega
  have hbyte : ∀ i, (i + 64 * q) % 64 = i % 64 := fun i => by omega
  simp only [xorIcV, List.mapIdx_append, hq, blockCounter_add64, hblock, hbyte]

/-- Settles O21: `xorIcV_getElem`, `xorIcV_xorIcV`, and `xorIcV_append` at the boundary after block `q`. -/
theorem xorStreamIsInvolutiveAndComposes : Obligations.XorStreamIsInvolutiveAndComposes := by
  unfold Obligations.XorStreamIsInvolutiveAndComposes
  refine ⟨fun p nonce c key i j h hj => ?_, xorIcV_xorIcV, fun p nonce c key q hq => ?_⟩
  · have hblock : (64 * i + j) / 64 = i := by omega
    have hbyte : (64 * i + j) % 64 = j := by omega
    rw [List.getElem?_eq_getElem (by rwa [xorIcV_length]), xorIcV_getElem, hblock, hbyte, blockCounter]
  · rw [← xorIcV_append _ _ _ _ _ q (List.length_take_of_le hq), List.take_append_drop]

/-! ### Encrypting in place, twice (R128) -/

/-- Putting back the bytes a write covered gives back the memory, as data. -/
theorem memWrite_memWrite_memRead (m : Memory) (a : Nat) (b : List Byte) (hm : memoryWf m = true) :
    memWrite (memWrite m a b) a (memRead m a b.length) = m := by
  have hwf : memoryWf (memWrite m a b) = true := memoryWf_memWrite _ _ _ hm
  refine memory_ext _ _ (memoryWf_memWrite _ _ _ hwf) hm fun x => ?_
  have hlen : (memRead m a b.length).length = b.length := memRead_length _ _ _
  by_cases hx : a ≤ x ∧ x < a + b.length
  · obtain ⟨i, rfl⟩ := Nat.exists_eq_add_of_le hx.1
    have hi : i < (memRead m a b.length).length := by omega
    rw [readByte_memWrite_inside _ _ _ i hwf hi, memRead_getElem]
  · rw [readByte_memWrite_of_outside _ _ _ _ (by omega), readByte_memWrite_of_outside _ _ _ _ (by omega)]

/-- The second command reads what the first wrote, so it writes what the first read. -/
theorem xorIcV_in_place_twice (m : Memory) (a n : Nat) (nonce : List Byte) (c : Word64) (key : List Byte)
    (hm : memoryWf m = true) :
    memWrite (memWrite m a (xorIcV (memRead m a n) nonce c key)) a
      (xorIcV (memRead (memWrite m a (xorIcV (memRead m a n) nonce c key)) a n) nonce c key) = m := by
  have hlen : (xorIcV (memRead m a n) nonce c key).length = n := by rw [xorIcV_length, memRead_length]
  have hback := memRead_memWrite m a (xorIcV (memRead m a n) nonce c key) hm
  have hput := memWrite_memWrite_memRead m a (xorIcV (memRead m a n) nonce c key) hm
  rw [hlen] at hback hput
  rw [hback, xorIcV_xorIcV, hput]

/-- Settles O22: both commands complete, the buffer being identical with itself, and `xorIcV_in_place_twice`. -/
theorem inPlaceXorTwiceRestoresMemory : Obligations.InPlaceXorTwiceRestoresMemory := by
  unfold Obligations.InPlaceXorTwiceRestoresMemory
  intro s addr length nonce counter key hm hsize hfit
  refine ⟨_, _, exec_salsa20XorIc_of_checks s addr addr length nonce counter key hsize ?first,
    exec_salsa20XorIc_of_checks _ addr addr length nonce counter key hsize ?second,
    xorIcV_in_place_twice s.mem addr length nonce counter key hm, rfl, rfl, ?_⟩
  case first => exact hfit.imp_right fun h => ⟨h, h, .inl rfl⟩
  case second => exact hfit.imp_right fun h => ⟨h, h, .inl rfl⟩
  · simp [okCode]

/-! ### Splitting a transfer (R129) -/

/-- A part of a range that fits, fits, also in a later state: no step changes `AW`. -/
theorem FitsBelow.part {s t : State} {a n a' n' : Nat} (h : FitsBelow s a n) (haw : t.aw = s.aw)
    (hle : a' + n' ≤ a + n) : FitsBelow t a' n' := by
  cases hw : s.aw with
  | none => simp only [FitsBelow, haw, hw]
  | some w =>
    simp only [FitsBelow, haw, hw] at h ⊢
    omega

/-- Reading past what a split command has written: the second part of the input is still what it was. -/
theorem memRead_rest_memWrite (m : Memory) (inAddr outAddr rest : Nat) (b : List Byte)
    (halias : inAddr = outAddr ∨ inAddr + (b.length + rest) ≤ outAddr ∨ outAddr + (b.length + rest) ≤ inAddr) :
    memRead (memWrite m outAddr b) (inAddr + b.length) rest = memRead m (inAddr + b.length) rest :=
  memRead_congr _ _ _ _ fun _ _ _ => readByte_memWrite_of_outside _ _ _ _ (by omega)

/-- One transfer is its first `64 * q` bytes and then the rest, counters running on. -/
theorem memWrite_xorIcV_split (m : Memory) (inAddr outAddr q rest : Nat) (nonce : List Byte) (c : Word64)
    (key : List Byte)
    (halias : inAddr = outAddr ∨ inAddr + (64 * q + rest) ≤ outAddr ∨ outAddr + (64 * q + rest) ≤ inAddr) :
    let m' := memWrite m outAddr (xorIcV (memRead m inAddr (64 * q)) nonce c key)
    memWrite m' (outAddr + 64 * q)
        (xorIcV (memRead m' (inAddr + 64 * q) rest) nonce (add64 c (BitVec.ofNat 64 q)) key) =
      memWrite m outAddr (xorIcV (memRead m inAddr (64 * q + rest)) nonce c key) := by
  intro m'
  have hlen : (xorIcV (memRead m inAddr (64 * q)) nonce c key).length = 64 * q := by
    rw [xorIcV_length, memRead_length]
  have hrest := memRead_rest_memWrite m inAddr outAddr rest (xorIcV (memRead m inAddr (64 * q)) nonce c key)
    (by rwa [hlen])
  rw [hlen] at hrest
  rw [hrest, memRead_add, xorIcV_append _ _ _ _ _ q (memRead_length _ _ _), memWrite_append, hlen]

/-- Settles O23: all three commands complete, the parts being parts of ranges that pass the checks, and
`memWrite_xorIcV_split`. -/
theorem splitXorCommandsCompose : Obligations.SplitXorCommandsCompose := by
  unfold Obligations.SplitXorCommandsCompose
  intro s outAddr inAddr q rest nonce counter key hsize hin hout halias
  refine ⟨_, _, _, exec_salsa20XorIc_of_checks s outAddr inAddr (64 * q + rest) nonce counter key hsize ?whole,
    exec_salsa20XorIc_of_checks s outAddr inAddr (64 * q) nonce counter key hsize ?first,
    exec_salsa20XorIc_of_checks _ (outAddr + 64 * q) (inAddr + 64 * q) rest nonce _ key hsize ?second,
    memWrite_xorIcV_split s.mem inAddr outAddr q rest nonce counter key halias, rfl, rfl, rfl, rfl, ?_⟩
  case whole => exact .inr ⟨hin, hout, halias⟩
  case first => exact .inr ⟨hin.part rfl (by omega), hout.part rfl (by omega), by omega⟩
  case second => exact .inr ⟨hin.part rfl (by omega), hout.part rfl (by omega), by omega⟩
  · simp [okCode]

end Sys2Proof.Machine
end

section
/-! SHA-512 beyond the single command (43_sha512_stream sections 2 and 3): initialisation and digest, updates one after
the other, and a message hashed in parts against the same message hashed at once. A run of updates is followed by the
one thing it does to its context, the blocks absorbed, and that is composed part by part. -/

namespace Sys2Proof.Machine

/-! ### `SHA512_INIT` and `SHA512_FINISH` (R170, R181) -/

/-- Settles O32: the context check decides. -/
theorem sha512InitMeaning : Obligations.Sha512InitMeaning := by
  unfold Obligations.Sha512InitMeaning
  refine fun s k => ⟨exec_sha512Init_of_ctx k s, fun hk => exec_of_failure _ s _ ?_⟩
  exact firstFailure_cons_of_not (mt (ctxOk_iff s k).1 hk)

theorem digest_eq_flatMap (hash : Vector Word64 8) : digest hash = hash.toList.flatMap be64Store := by
  rw [vector_toList_eq_ofFn]
  simp [digest, List.ofFn_succ]

/-- Settles O36: context and order are the first check to fail in turn; the digest by `digest_eq_flatMap`. -/
theorem sha512FinishMeaning : Obligations.Sha512FinishMeaning := by
  unfold Obligations.Sha512FinishMeaning
  refine fun s k => ⟨fun hk => exec_of_failure _ s _ ?_, exec_sha512Finish_of_not_padded k s, fun hk hphase => ?_⟩
  · exact firstFailure_cons_of_not (mt (ctxOk_iff s k).1 hk)
  · rw [exec_sha512Finish_of_padded k s hk hphase, digest_eq_flatMap]
    rfl

/-! ### Commands that complete -/

/-- A command with no output bytes breaks no buffer rule when its input fits. -/
theorem not_badBuffer_of_no_output {s : State} {i : Instr} (hout : (writeFootprint i).2 = 0)
    (hfit : (readFootprint i).2 = 0 ∨ FitsBelow s (readFootprint i).1 (readFootprint i).2) : ¬BadBuffer s i := by
  rintro (⟨hpos, hbad⟩ | ⟨hpos, -⟩ | ⟨-, hpos, -⟩)
  · exact hfit.elim hpos.ne' hbad
  · exact hpos.ne' hout
  · exact hpos.ne' hout

theorem exec_sha512Init_completes {s : State} {k : Nat} (hk : k < nctx s) :
    ∃ t, exec (.sha512Init k) s = .next t ∧ Completed (.sha512Init k) s t :=
  exec_completes (Nat.not_le.2 hk) not_false not_false (not_badBuffer_of_no_output rfl (.inl rfl))

theorem exec_sha512UpdateMulti_completes {s : State} {k a n : Nat} (hk : k < nctx s)
    (hphase : (ctxAt s k).phase = .fresh ∨ (ctxAt s k).phase = .absorbing) (hfit : FitsBelow s a (128 * n)) :
    ∃ t, exec (.sha512UpdateMulti k a n) s = .next t ∧ Completed (.sha512UpdateMulti k a n) s t :=
  exec_completes (Nat.not_le.2 hk) not_false (by tauto) (not_badBuffer_of_no_output rfl (.inr hfit))

theorem exec_sha512UpdateLast_completes {s : State} {k a n : Nat} (hk : k < nctx s) (hn : n ≤ 127)
    (hphase : (ctxAt s k).phase = .fresh ∨ (ctxAt s k).phase = .absorbing) (hfit : n = 0 ∨ FitsBelow s a n) :
    ∃ t, exec (.sha512UpdateLast k a n) s = .next t ∧ Completed (.sha512UpdateLast k a n) s t :=
  exec_completes (Nat.not_le.2 hk) (Nat.not_lt.2 hn) (by tauto) (not_badBuffer_of_no_output rfl hfit)

theorem exec_sha512Finish_completes {s : State} {k : Nat} (hk : k < nctx s) (hphase : (ctxAt s k).phase = .padded) :
    ∃ t, exec (.sha512Finish k) s = .next t ∧ Completed (.sha512Finish k) s t :=
  exec_completes (Nat.not_le.2 hk) not_false (not_not.2 hphase) (not_badBuffer_of_no_output rfl (.inl rfl))

/-- `LEN` counts the bits of the blocks of two runs together, modulo `2^128`. -/
theorem len_add_add (len : Word128) (n1 n2 : Nat) :
    len + BitVec.ofNat 128 (1024 * n1) + BitVec.ofNat 128 (1024 * n2) = len + BitVec.ofNat 128 (1024 * (n1 + n2)) := by
  rw [BitVec.add_assoc, ← BitVec.ofNat_add, Nat.mul_add]

/-- Settles O38: the two runs of blocks make one (`absorbV_memRead_add`), and so do their bit lengths. -/
theorem updateMultiComposes : Obligations.UpdateMultiComposes := by
  unfold Obligations.UpdateMultiComposes
  intro s k a n1 n2 hk hphase hfit
  obtain ⟨t, ht, hdone⟩ := exec_sha512UpdateMulti_completes hk hphase hfit
  have hfitFirst : FitsBelow s a (128 * n1) := hfit.part rfl (by omega)
  obtain ⟨u, hu, hfirst⟩ := exec_sha512UpdateMulti_completes hk hphase hfitFirst
  have hctx := hfirst.ctxAt_named hk rfl
  have hfitSecond : FitsBelow u (a + 128 * n1) (128 * n2) := hfit.part hfirst.aw (by omega)
  obtain ⟨v, hv, hsecond⟩ := exec_sha512UpdateMulti_completes (hfirst.nctx_eq.symm ▸ hk)
    (.inr (congrArg Context.phase hctx)) hfitSecond
  have hmem : u.mem = s.mem := hfirst.mem_of_not_isSalsa rfl
  refine ⟨t, u, v, ht, hu, hv, ?_, ?_, hdone.faults, hfirst.faults, hsecond.faults.trans hfirst.faults, hdone.rspLog,
    ?_⟩
  · rw [hsecond.ctxs, hdone.ctxs, ctxsAfter_of_some rfl, ctxsAfter_of_some rfl, hctx, hfirst.ctxs,
      ctxsAfter_of_some rfl, List.set_set, hmem]
    simp only [contextAfter, inputOf, readFootprint, absorbV_memRead_add, len_add_add]
  · rw [hsecond.mem_of_not_isSalsa rfl, hmem, hdone.mem_of_not_isSalsa rfl]
  · rw [hsecond.rspLog, hfirst.rspLog, List.append_assoc]
    rfl

/-! ### A run of updates (R173) -/

/-- From `s` to `t` context `k` has absorbed the `n` blocks at `a`, still absorbs, and nothing around it has changed. -/
structure Absorbed (k a n : Nat) (s t : State) : Prop where
  phase : (ctxAt t k).phase = .fresh ∨ (ctxAt t k).phase = .absorbing
  h : (ctxAt t k).h = absorbV (ctxAt s k).h (memRead s.mem a (128 * n)) n
  len : (ctxAt t k).len = (ctxAt s k).len + BitVec.ofNat 128 (1024 * n)
  nctx : nctx t = nctx s
  mem : t.mem = s.mem
  faults : t.faults = s.faults
  aw : t.aw = s.aw

theorem Absorbed.refl {k a : Nat} {s : State}
    (hphase : (ctxAt s k).phase = .fresh ∨ (ctxAt s k).phase = .absorbing) : Absorbed k a 0 s s where
  phase := hphase
  h := (absorbV_zero _ _).symm
  len := (BitVec.add_zero _).symm
  nctx := rfl
  mem := rfl
  faults := rfl
  aw := rfl

theorem Absorbed.trans {k a n1 n2 : Nat} {s t u : State} (h : Absorbed k a n1 s t)
    (h' : Absorbed k (a + 128 * n1) n2 t u) : Absorbed k a (n1 + n2) s u where
  phase := h'.phase
  h := by rw [h'.h, h.h, h.mem, absorbV_memRead_add]
  len := by rw [h'.len, h.len, len_add_add]
  nctx := h'.nctx.trans h.nctx
  mem := h'.mem.trans h.mem
  faults := h'.faults.trans h.faults
  aw := h'.aw.trans h.aw

theorem Completed.absorbed {k a n : Nat} {s t : State} (h : Completed (.sha512UpdateMulti k a n) s t)
    (hk : k < nctx s) : Absorbed k a n s t := by
  have hctx := h.ctxAt_named hk rfl
  exact {
    phase := .inr (congrArg Context.phase hctx), h := congrArg Context.h hctx, len := congrArg Context.len hctx
    nctx := h.nctx_eq, mem := h.mem_of_not_isSalsa rfl, faults := h.faults, aw := h.aw }

/-- One `SHA512_UPDATE_MULTI` for each count, at consecutive addresses from `a` on. -/
def updateCommands (k a : Nat) : List Nat → List Instr
  | [] => []
  | n :: parts => .sha512UpdateMulti k a n :: updateCommands k (a + 128 * n) parts

/-- The commands of the statement, whose addresses are found from the sums of the counts before each. -/
theorem map_zip_inits_eq_updateCommands (k a : Nat) (parts : List Nat) :
    ((parts.zip (parts.inits.map List.sum)).map fun q => Instr.sha512UpdateMulti k (a + 128 * q.2) q.1) =
      updateCommands k a parts := by
  induction parts generalizing a with
  | nil => rfl
  | cons n parts ih =>
    simp [updateCommands, ← ih, List.zip_map_right, Nat.mul_add, Nat.add_assoc, Function.comp_def]

/-- A run goes on with the next command from the state the last one answered. -/
def execNext (o : Host.Outcome State Fault Refusal) (i : Instr) : Host.Outcome State Fault Refusal :=
  match o with
  | .next s => exec i s
  | other => other

theorem execNext_next (s : State) (i : Instr) : execNext (.next s) i = exec i s := rfl

/-- The updates all complete; together they absorb the sum of their blocks. -/
theorem foldl_updateCommands (k a : Nat) (parts : List Nat) (s : State) (hk : k < nctx s)
    (hphase : (ctxAt s k).phase = .fresh ∨ (ctxAt s k).phase = .absorbing)
    (hfit : FitsBelow s a (128 * parts.sum)) :
    ∃ t, (updateCommands k a parts).foldl execNext (.next s) = .next t ∧ Absorbed k a parts.sum s t := by
  induction parts generalizing a s with
  | nil => exact ⟨s, rfl, .refl hphase⟩
  | cons n parts ih =>
    rw [List.sum_cons] at hfit ⊢
    have hfitFirst : FitsBelow s a (128 * n) := hfit.part rfl (by omega)
    obtain ⟨t, ht, hdone⟩ := exec_sha512UpdateMulti_completes hk hphase hfitFirst
    have hfirst := hdone.absorbed hk
    obtain ⟨u, hu, hrest⟩ :=
      ih (a + 128 * n) t (hfirst.nctx.symm ▸ hk) hfirst.phase (hfit.part hfirst.aw (by omega))
    exact ⟨u, by rw [updateCommands, List.foldl_cons, execNext_next, ht, hu], hfirst.trans hrest⟩

/-! ### The whole message (R182, R183) -/

/-- The blocks from `IV`, then the padded tail, are the hash words of the whole message. -/
theorem sha512V_memRead_blocks_tail (m : Memory) (a n tail : Nat) (htail : tail ≤ 127) :
    sha512V (memRead m a (128 * n + tail)) =
      let padded := pad (memRead m (a + 128 * n) tail) (0 + BitVec.ofNat 128 (1024 * n))
      digest (absorbV (absorbV iv (memRead m a (128 * n)) n) padded (padded.length / 128)) := by
  have hdiv : (128 * n + tail) / 128 = n := by omega
  have hsub : 128 * n + tail - 128 * n = tail := by omega
  rw [← digest_hashEngine m a _ ShaRegs.reset, hashEngine, hdiv, hsub, updateLastBody_ctx, updateMultiBody_ctx]
  rfl

/-- `SHA512_INIT`, the updates, `SHA512_UPDATE_LAST` and `SHA512_FINISH` end with the digest of the whole message. -/
theorem foldl_hashCommands (k a : Nat) (parts : List Nat) (tail : Nat) (s : State) (hk : k < nctx s)
    (htail : tail ≤ 127) (hfit : FitsBelow s a (128 * parts.sum + tail)) :
    ∃ t, List.foldl execNext (.next s) ([.sha512Init k] ++ updateCommands k a parts ++
          [.sha512UpdateLast k (a + 128 * parts.sum) tail, .sha512Finish k]) = .next t ∧
      t.rspLog.getLast? =
        some { status := okCode, value := sha512V (memRead s.mem a (128 * parts.sum + tail)) } ∧
      t.faults = s.faults ∧ t.mem = s.mem := by
  obtain ⟨s1, hinit, hdone1⟩ := exec_sha512Init_completes hk
  have hk1 : k < nctx s1 := hdone1.nctx_eq.symm ▸ hk
  have hc1 : ctxAt s1 k = initBody := hdone1.ctxAt_named hk rfl
  obtain ⟨s2, hupdates, habs⟩ := foldl_updateCommands k a parts s1 hk1 (.inl (congrArg Context.phase hc1))
    (hfit.part hdone1.aw (by omega))
  have hk2 : k < nctx s2 := habs.nctx.symm ▸ hk1
  obtain ⟨s3, hlast, hdone3⟩ := exec_sha512UpdateLast_completes (a := a + 128 * parts.sum) hk2 htail habs.phase
    (.inr (hfit.part (habs.aw.trans hdone1.aw) (by omega)))
  have hc3 := hdone3.ctxAt_named hk2 rfl
  obtain ⟨t, hfinish, hdone⟩ :=
    exec_sha512Finish_completes (hdone3.nctx_eq.symm ▸ hk2) (congrArg Context.phase hc3)
  have hmem1 : s1.mem = s.mem := hdone1.mem_of_not_isSalsa rfl
  have hdigest : digest (ctxAt s3 k).h = sha512V (memRead s.mem a (128 * parts.sum + tail)) := by
    rw [hc3, sha512V_memRead_blocks_tail _ _ _ _ htail, ← hmem1]
    simp only [contextAfter, inputOf, readFootprint, habs.h, habs.len, habs.mem, hc1, initBody]
  refine ⟨t, ?_, ?_, ?_, ?_⟩
  · simp only [List.foldl_append, List.foldl_cons, List.foldl_nil, execNext_next, hinit, hupdates, hlast, hfinish]
  · rw [hdone.rspLog, List.getLast?_concat, valueOf, namedContext_of_some rfl, hdigest]
  · rw [hdone.faults, hdone3.faults, habs.faults, hdone1.faults]
  · rw [hdone.mem_of_not_isSalsa rfl, hdone3.mem_of_not_isSalsa rfl, habs.mem, hmem1]

/-- Settles O39: the parts give the digest of the whole message by `foldl_hashCommands`, and so does `SHA512_HASH`. -/
theorem incrementalHashEqualsOneShot : Obligations.IncrementalHashEqualsOneShot := by
  unfold Obligations.IncrementalHashEqualsOneShot
  intro s k a parts tail hk htail hfit
  obtain ⟨-, hhash⟩ := sha512HashMeaning s a (128 * parts.sum + tail)
  rw [map_zip_inits_eq_updateCommands]
  obtain ⟨t, ht, hlast, hfaults, hmem⟩ := foldl_hashCommands k a parts tail s hk htail hfit
  refine ⟨t, _, ht, hhash (.inr hfit), ?_, hfaults, hmem⟩
  rw [hlast, respond_rspLog, List.getLast?_concat]

/-! ### Empty transfers (R62, R123, R206) -/

/-- A transfer of no bytes writes nothing, wherever it points. -/
theorem exec_salsa20XorIc_empty (s : State) (a b : Nat) (nonce : List Byte) (counter : Word64) (key : List Byte)
    (hsize : key.length = 32 ∧ nonce.length = 8) :
    exec (.salsa20XorIc a b 0 nonce counter key) s = .next (respond [] (retireSalsa s)) :=
  exec_salsa20XorIc_of_checks s a b 0 nonce counter key hsize (.inl rfl)

/-- Settles O45: no check looks at the address of an empty transfer, and an empty input leaves `H` and `LEN` alone. -/
theorem emptyTransfersIgnoreAddresses : Obligations.EmptyTransfersIgnoreAddresses := by
  unfold Obligations.EmptyTransfersIgnoreAddresses
  intro s nonce key counter k a b hkey hnonce hk hphase
  have hxor := exec_salsa20XorIc_empty s a b nonce
  obtain ⟨-, -, hstream⟩ := salsa20StreamMeaning s a 0 nonce key
  obtain ⟨-, -, -, hmulti⟩ := sha512UpdateMultiMeaning s k a 0
  obtain ⟨-, hhash⟩ := sha512HashMeaning s a 0
  refine ⟨hxor counter key ⟨hkey, hnonce⟩, hxor 0 key ⟨hkey, hnonce⟩, hstream ⟨hkey, hnonce⟩ (.inl rfl), ?multi, ?last,
    hhash (.inl rfl)⟩
  case multi =>
    have hlen : add128 (ctxAt s k).len (BitVec.ofNat 128 (1024 * 0)) = (ctxAt s k).len := BitVec.add_zero _
    rw [hmulti hk (.inl hphase) (.inl rfl), absorbV_zero, hlen]
  case last =>
    obtain ⟨t, ht, hdone⟩ := exec_sha512UpdateLast_completes (a := a) hk (Nat.zero_le 127) (.inl hphase) (.inl rfl)
    have hctx := hdone.ctxAt_named hk rfl
    have hlen : (ctxAt t k).len = (ctxAt s k).len := (congrArg Context.len hctx).trans (BitVec.add_zero _)
    exact ⟨t, ht, hdone.mem_of_not_isSalsa rfl, congrArg Context.phase hctx, hlen, hdone.faults, hdone.rspLog⟩

end Sys2Proof.Machine
end

section
/-! Commands and records (30_encoding R81, R82, R85, 10_state R28): a record decodes to its command and back, a step
runs what it decodes to, and a command that keeps its operand contracts passes the first two checks. -/

namespace Sys2Proof.Machine

/-! ### Decoding (R81 to R83) -/

/-- Settles O3: the record's opcode selects the arm of `decode`. -/
theorem decodeReadsTheRecord : Obligations.DecodeReadsTheRecord := by
  unfold Obligations.DecodeReadsTheRecord
  intro r
  refine ⟨?_, ?_, ?_, ?_, ?_, ?_, ?_, ?_, ?_, ?_⟩ <;> intro hop <;> simp [decode, hop]

theorem decode_encode (i : Instr) : decode (encode i) = .ok i := by
  cases i <;> rfl

/-- Settles O4: `decode_encode` and `op_eq_opcode_of_decode`. -/
theorem decodeEncodeAgree : Obligations.DecodeEncodeAgree := by
  unfold Obligations.DecodeEncodeAgree
  exact ⟨decode_encode, op_eq_opcode_of_decode⟩

/-- Settles O5: the five table words, evaluated. -/
theorem opcodeWordsDecode : Obligations.OpcodeWordsDecode := by
  unfold Obligations.OpcodeWordsDecode
  exact ⟨rfl, rfl, rfl, rfl, rfl⟩

/-! ### The step (10_state R25) -/

/-- Settles O1: the arms of `step`, `takeCommand` being the record update of the statement. -/
theorem stepRunsTheDecodedCommand : Obligations.StepRunsTheDecodedCommand := by
  unfold Obligations.StepRunsTheDecodedCommand
  refine fun s => ⟨fun hq => ?_, fun r rest hq => ⟨fun i hi => ?_, fun e he => ?_⟩⟩
  · simp only [step, hq, idle]
  · simp only [step, hq, hi, takeCommand]
  · exact step_of_decode_error s r rest e hq he

/-! ### Operand contracts (R82, R85) -/

/-- The exception a command answers with is the cause of a check that fails. -/
theorem check_fails_of_exec_takeException {i : Instr} {s : State} {c : Cause}
    (h : exec i s = .next (takeException c s)) : (false, c) ∈ checksOf s i := by
  obtain ⟨d, hd, heq⟩ | ⟨-, hdone⟩ := exec_refused_or_completed h
  · have hcause : c = d := by simpa using congrArg State.faults heq
    exact hcause ▸ firstFailure_eq_some _ _ hd
  · exact absurd hdone.faults (by simp)

/-- A well-formed command names an existing context, if it names one. -/
theorem ctxOperand_lt_of_wellFormed {i : Instr} {p : Params} {k : Nat} (h : i.wellFormed p = true)
    (hk : ctxOperand i = some k) : k < p.nctx := by
  cases i with
  | salsa20Keystream | salsa20Stream | salsa20Xor | salsa20XorIc | sha512Hash => cases hk
  | sha512Init | sha512Update | sha512UpdateMulti | sha512UpdateLast | sha512Finish =>
    cases hk
    simp only [Instr.wellFormed, Bool.and_eq_true, decide_eq_true_eq] at h
    tauto

theorem not_namesNoContext_of_wellFormed {i : Instr} {s : State} (h : i.wellFormed (params s) = true) :
    ¬NamesNoContext s i := by
  cases hk : ctxOperand i with
  | none => simp only [NamesNoContext, hk, not_false_eq_true]
  | some k =>
    have hlt : k < nctx s := ctxOperand_lt_of_wellFormed h hk
    simpa only [NamesNoContext, hk, Nat.not_le] using hlt

/-- A well-formed command keeps the size contracts of key, nonce and tail. -/
theorem not_wrongSize_of_wellFormed {i : Instr} {p : Params} (h : i.wellFormed p = true) : ¬WrongSize i := by
  cases i with
  | salsa20Keystream | salsa20Stream | salsa20Xor | salsa20XorIc =>
    simp only [Instr.wellFormed, Bool.and_eq_true, decide_eq_true_eq] at h
    simp only [WrongSize]
    tauto
  | sha512UpdateLast =>
    simp only [Instr.wellFormed, Bool.and_eq_true, decide_eq_true_eq] at h
    exact Nat.not_lt.2 h.2
  | sha512Init | sha512Update | sha512UpdateMulti | sha512Finish | sha512Hash => exact not_false

/-- Settles O53: of the four causes the first two are those whose checks a well-formed command passes. -/
theorem wellFormedCommandsPassTheBoundary : Obligations.WellFormedCommandsPassTheBoundary := by
  unfold Obligations.WellFormedCommandsPassTheBoundary
  intro s i c hwf h
  have hfails := check_fails_of_exec_takeException h
  cases c with
  | illegalCommand =>
    exact absurd ((illegalCommand_check_fails_iff s i).1 hfails) (not_namesNoContext_of_wellFormed hwf)
  | sizeMismatch => exact absurd ((sizeMismatch_check_fails_iff s i).1 hfails) (not_wrongSize_of_wellFormed hwf)
  | orderViolation => exact .inl rfl
  | bufferViolation => exact .inr rfl

end Sys2Proof.Machine
end
